-- ==== Sys2Proof/Word.lean ====
section
/-! DEFINITION. Word types of the JTAG TAP Simulator: bits, bit sequences, pin-sample bytes, command words and
sequence indices (00_scope.md R7, R8, R9). -/

namespace Sys2Proof

/-- A bit, 0 or 1 (00_scope.md R8). -/
abbrev Bit := Fin 2

/-- A finite ordered list of bits; position 0 is the first bit shifted (00_scope.md R9). -/
abbrev BitSeq := List Bit

/-- A pin-sample byte (30_encoding.md R60). -/
abbrev Byte := BitVec 8

/-- A packed 5-bit command word (30_encoding.md R66). -/
abbrev CmdWord := BitVec 5

/-- A sequence index: `u64`, unsigned (00_scope.md R7). -/
abbrev SeqIndex := BitVec 64

end Sys2Proof
end

