-- ==== Sys2Proof/Config.lean ====
section
/-! DEFINITION. What is fixed for a run or for the block (00_scope.md R7): the open parameter `samplePhase`, the
constants, and the one free value. -/

namespace Sys2Proof

/-- The clock phase at which the data bits of a shift are sampled (41_shift_registers.md R132). -/
inductive SamplePhase where
  | onEdge
  | beforeEdge
deriving DecidableEq, Repr, Inhabited

/-- The configuration `cfg = {samplePhase}` of a run (42_commands.md R160). -/
structure RunConfig where
  samplePhase : SamplePhase
deriving DecidableEq, Repr

namespace Config

/-- The phase of the run that `State.reset` starts. The spec leaves it OPEN (92_eei_decisions.md D4), so it has no
body and no proof can see which of the two it is. DESIGN CHOICE, safe (log entry 1). -/
opaque samplePhase : SamplePhase

/-- The `sequence_index` of a command given without one at a stream position of 2^64 or more: 30_encoding.md R66 says
it is the position, which a `u64` cannot hold, so no value is stated. A free value. DESIGN CHOICE, safe (log entry 3). -/
opaque freeSeqIndex : Nat → SeqIndex

/-- `RESET_ONES` (00_scope.md R7). -/
def resetOnes : Nat := 5

/-- The fixed pin assignment (00_scope.md R7, 30_encoding.md R60): the bit of a pin-sample byte that holds each signal. -/
def clockPin : Nat := 0
def dataOutPin : Nat := 1
def dataInPin : Nat := 2
def modeSelectPin : Nat := 3

end Config

end Sys2Proof
end

