-- ==== Sys2Proof/Syntax.lean ====
section
/-! DEFINITION. The commands, whole (30_encoding.md R65 to R69): the record at the input port, the two forms in which a
stream holds a command, and `Instr`, one constructor per row of the opcode table. -/

namespace Sys2Proof

/-- The edge class of a command record (30_encoding.md R63, R65): a three-valued enum. -/
inductive Edge where
  | noEdge
  | rising
  | falling
deriving DecidableEq, Repr

/-- The operands of a command. The pin fields are natural numbers, not bits, because the block must detect a value
outside 0 and 1 (30_encoding.md R65). -/
structure Operands where
  sequenceIndex : SeqIndex
  dataOut : Nat
  dataIn : Nat
  modeSelect : Nat
deriving DecidableEq, Repr

/-- One command, by its row of the opcode table (30_encoding.md R69). -/
inductive Instr where
  /-- NONE: no clock transition (42_commands.md R163). -/
  | noEdge (c : Operands)
  /-- RISE: a clock 0 to 1 transition (42_commands.md R165). -/
  | rise (c : Operands)
  /-- FALL: a clock 1 to 0 transition (42_commands.md R164). -/
  | fall (c : Operands)
  /-- The reserved edge code 11 (30_encoding.md R67). -/
  | reserved (c : Operands)
deriving DecidableEq, Repr

/-- The block's input record, FtdiCommand (30_encoding.md R65). -/
structure FtdiCommand where
  sequenceIndex : SeqIndex
  clockEdge : Edge
  dataOut : Nat
  dataIn : Nat
  modeSelect : Nat
deriving DecidableEq, Repr

/-- One entry of a command stream (20_memory.md R46): a 5-bit word, with the sequence index that travels beside it or
without one (30_encoding.md R66), or a record (R65). -/
inductive PortInput where
  | word (index : Option SeqIndex) (w : CmdWord)
  | record (c : FtdiCommand)
deriving DecidableEq, Repr

/-- The operands of a command, whatever its edge. -/
def Instr.operands : Instr → Operands
  | .noEdge c => c
  | .rise c => c
  | .fall c => c
  | .reserved c => c

end Sys2Proof
end

