-- ==== Sys2Proof/Machine/State.lean ====
section
/-! DEFINITION. The state of the machine, as plain data: the record SimState of 10_state.md R20, and around it what the
fold of 42_commands.md R167 holds: the run's configuration, the commands still to come, the position, the event log. -/

namespace Sys2Proof.Machine

/-- The two register classes (10_state.md R23). -/
inductive Kind where
  | dr
  | ir
deriving DecidableEq, Repr

/-- The 16 TAP states, in the spec's order (10_state.md R21). -/
inductive TapState where
  | tlr | rti
  | selDR | capDR | shDR | ex1DR | pauseDR | ex2DR | updDR
  | selIR | capIR | shIR | ex1IR | pauseIR | ex2IR | updIR
deriving DecidableEq, Repr

/-- A shift register: the bits of one shift segment, in shift order (10_state.md R23). -/
structure ShiftRegister where
  kind : Kind
  bitsOut : BitSeq
  bitsIn : BitSeq
  length : Nat
deriving DecidableEq, Repr

/-- The causes of a fatal error of the block: exactly one (60_exceptions.md R180). -/
inductive FatalCause where
  | malformedCommandError
deriving DecidableEq, Repr

/-- The check that failed (60_exceptions.md R182). -/
inductive FieldName where
  | edge
  | modeSelect
  | dataOut
  | dataIn
  | phase
deriving DecidableEq, Repr

/-- The record of a fatal error (10_state.md R28, 60_exceptions.md R182). -/
structure FatalRecord where
  sequenceIndex : SeqIndex
  cause : FatalCause
  field : FieldName
deriving DecidableEq, Repr

/-- The events a step emits (42_commands.md R166). -/
inductive Event where
  | transition (sequenceIndex : SeqIndex) (source target : TapState)
  | sealed (sequenceIndex : SeqIndex) (register : ShiftRegister)
  | latched (sequenceIndex : SeqIndex) (kind : Kind) (register : ShiftRegister)
deriving DecidableEq, Repr

/-- The block's state record (10_state.md R20). -/
structure SimState where
  /-- current TAP state (R21) -/
  tap : TapState
  /-- register being accumulated: the spec's `open` (R22) -/
  openReg : Option ShiftRegister
  /-- last sealed register of the current scan (R24) -/
  pending : Option ShiftRegister
  /-- value latched by the last Update-IR (R25) -/
  latchedIr : Option ShiftRegister
  /-- value latched by the last Update-DR (R25) -/
  latchedDr : Option ShiftRegister
  /-- consecutive Rising edges with mode_select = 1 (R26) -/
  ones : Nat
  /-- (data_out, data_in) of the previous command (R27) -/
  prev : Option (Bit × Bit)
  /-- sticky fatal error (R28) -/
  fault : Option FatalRecord
deriving DecidableEq, Repr

/-- The machine: the block's record and the fold around it (42_commands.md R160, R167). -/
structure State where
  /-- the run's configuration, fixed for the run (70_reset_and_hazards.md R203) -/
  cfg : RunConfig
  /-- the block's state record (10_state.md R20) -/
  sim : SimState
  /-- the commands still to be applied, in stream order (20_memory.md R48) -/
  stream : List PortInput
  /-- the position of the next command in its stream (10_state.md R30) -/
  position : Nat
  /-- the events emitted so far, in stream order (42_commands.md R167) -/
  log : List Event
deriving DecidableEq, Repr

/-- Why a step gives no next state. The block's own fatal error is NOT here: it is taken, as a next state with
`fault` set (60_exceptions.md R183). -/
inductive Fault where
  /-- Raised by `step` when no command is left: the run has ended (42_commands.md R168). DESIGN CHOICE, safe (log entry 4). -/
  | endOfStream
  /-- Raised by RISE in Shift-xR with no open register, a state no run reaches (10_state.md R22). DESIGN CHOICE, safe (log entry 6). -/
  | shiftWithoutOpenRegister
  /-- Raised by RISE from Capture-xR to Exit1-xR with no open register, a state no run reaches (10_state.md R22).
  DESIGN CHOICE, safe (log entry 6). -/
  | sealWithoutOpenRegister
  /-- Raised by RISE into Update-xR with no pending register, a state no run reaches (10_state.md R24).
  DESIGN CHOICE, safe (log entry 6). -/
  | latchWithoutPendingRegister
deriving DecidableEq, Repr

/-- Why the model gives an instruction no meaning. -/
inductive Refusal where
  /-- Raised by `exec` for an instruction that is not modelled; no arm of this model does. Safe. -/
  | notModelled (mnemonic : String)
deriving DecidableEq, Repr

/-- The block's reset state (70_reset_and_hazards.md R200). -/
def SimState.reset : SimState :=
  { tap := .tlr, openReg := none, pending := none, latchedIr := none, latchedDr := none, ones := 0, prev := none,
    fault := none }

/-- The start of a run with a given phase: the reset state, position 0 and an empty log (42_commands.md R167). No
command is loaded: the stream comes from the host (70_reset_and_hazards.md R210). DESIGN CHOICE, unsafe (log entry 2). -/
def State.resetWith (phase : SamplePhase) : State :=
  { cfg := { samplePhase := phase }, sim := SimState.reset, stream := [], position := 0, log := [] }

/-- The machine right after reset, with the open parameter at its unknown value (log entry 1). -/
def State.reset : State := State.resetWith Config.samplePhase

end Sys2Proof.Machine
end

