-- ==== Sys2Proof/Machine/Tap.lean ====
section
/-! DEFINITION. The TAP graph: the next-state function and the classes of states (40_tap_controller.md R90 to R107,
10_state.md R21). -/

namespace Sys2Proof.Machine

/-- The column "kind" of the state table (10_state.md R21). -/
def kindOf : TapState → Option Kind
  | .tlr | .rti => none
  | .selDR | .capDR | .shDR | .ex1DR | .pauseDR | .ex2DR | .updDR => some .dr
  | .selIR | .capIR | .shIR | .ex1IR | .pauseIR | .ex2IR | .updIR => some .ir

/-- `s --0--> a, s --1--> b` (40_tap_controller.md R90). -/
def branch (m : Bit) (a b : TapState) : TapState := if m = 0 then a else b

/-- The next-state function `next(s, m)`: one line per rule of 40_tap_controller.md, R92 to R107. The spec's source
quotes the rows of `tlr` and `shDR`; the spec supplies the others from the IEEE 1149.1 graph that the source requires
(93_implementation_defined.md G1). -/
def nextTap (s : TapState) (m : Bit) : TapState :=
  match s with
  | .tlr => branch m .rti .tlr
  | .rti => branch m .rti .selDR
  | .selDR => branch m .capDR .selIR
  | .capDR => branch m .shDR .ex1DR
  | .shDR => branch m .shDR .ex1DR
  | .ex1DR => branch m .pauseDR .updDR
  | .pauseDR => branch m .pauseDR .ex2DR
  | .ex2DR => branch m .shDR .updDR
  | .updDR => branch m .rti .selDR
  | .selIR => branch m .capIR .tlr
  | .capIR => branch m .shIR .ex1IR
  | .shIR => branch m .shIR .ex1IR
  | .ex1IR => branch m .pauseIR .updIR
  | .pauseIR => branch m .pauseIR .ex2IR
  | .ex2IR => branch m .shIR .updIR
  | .updIR => branch m .rti .selDR

/-- `s ∈ {ShDR, ShIR}`. -/
def isShift : TapState → Bool
  | .shDR | .shIR => true
  | _ => false

/-- `s ∈ {CapDR, CapIR}`. -/
def isCapture : TapState → Bool
  | .capDR | .capIR => true
  | _ => false

/-- `s ∈ {Ex1DR, Ex1IR}`. -/
def isExit1 : TapState → Bool
  | .ex1DR | .ex1IR => true
  | _ => false

/-- `s ∈ {PauseDR, PauseIR}`. -/
def isPause : TapState → Bool
  | .pauseDR | .pauseIR => true
  | _ => false

/-- `s ∈ {Ex2DR, Ex2IR}`. -/
def isExit2 : TapState → Bool
  | .ex2DR | .ex2IR => true
  | _ => false

/-- `s ∈ {UpdDR, UpdIR}`. -/
def isUpdate : TapState → Bool
  | .updDR | .updIR => true
  | _ => false

end Sys2Proof.Machine
end

