-- ==== Sys2Proof/Machine/Flags.lean ====
section
/-! DEFINITION. The block's counter and its one status flag: the consecutive-ones count, the forced reset
(40_tap_controller.md R110, R111) and the sticky fault (10_state.md R28). -/

namespace Sys2Proof.Machine

/-- The counter after a Rising command with mode_select `m` (40_tap_controller.md R110). -/
def countOnes (ones : Nat) (m : Bit) : Nat := if m = 1 then min (ones + 1) Config.resetOnes else 0

/-- The forced reset: with five ones counted the state is Test-Logic-Reset, whatever the graph gave
(40_tap_controller.md R111). -/
def forceReset (ones : Nat) (s1 : TapState) : TapState := if ones = Config.resetOnes then .tlr else s1

/-- A fatal error has been recorded (42_commands.md R161). -/
def isFaulted (st : SimState) : Bool := st.fault.isSome

end Sys2Proof.Machine
end

