-- ==== Sys2Proof/Machine/Operands.lean ====
section
/-! DEFINITION. The operands of a command: their validation (42_commands.md R162) and the bits a shift appends
(41_shift_registers.md R132). -/

namespace Sys2Proof.Machine

/-- The pin fields of a validated command. -/
structure Pins where
  dataOut : Bit
  dataIn : Bit
  modeSelect : Bit
deriving DecidableEq, Repr

/-- The bit a pin field holds, if it holds one. -/
def pinBit (n : Nat) : Option Bit := if h : n < 2 then some ⟨n, h⟩ else none

/-- Validation of the pin fields, in the spec's order: mode_select, data_out, data_in; the first that fails names the
field (42_commands.md R162, 60_exceptions.md R185). The edge check comes before these and is the RESERVED row's own. -/
def validate (c : Operands) : Except FieldName Pins :=
  match pinBit c.modeSelect, pinBit c.dataOut, pinBit c.dataIn with
  | none, _, _ => .error .modeSelect
  | some _, none, _ => .error .dataOut
  | some _, some _, none => .error .dataIn
  | some m, some o, some i => .ok { dataOut := o, dataIn := i, modeSelect := m }

/-- The pair (data_out, data_in) of a command. -/
def dataBits (pins : Pins) : Bit × Bit := (pins.dataOut, pins.dataIn)

/-- The bits a shift appends: the Rising command's own, or those of the command just before it; with no command before
it, the error names the phase (41_shift_registers.md R132). -/
def shiftBits (phase : SamplePhase) (prev : Option (Bit × Bit)) (pins : Pins) : Except FieldName (Bit × Bit) :=
  match phase, prev with
  | .onEdge, _ => .ok (dataBits pins)
  | .beforeEdge, some b => .ok b
  | .beforeEdge, none => .error .phase

end Sys2Proof.Machine
end

