-- ==== Sys2Proof/Machine/Ops.lean ====
section
/-! DEFINITION. The named operations over the state: taking the fatal error, the shift-register operations
(41_shift_registers.md R130 to R137), and the shape every command shares (42_commands.md R160 to R162). -/

namespace Sys2Proof.Machine

/-! ### Field updates -/

def SimState.setTap (st : SimState) (v : TapState) : SimState := { st with tap := v }
def SimState.setOpen (st : SimState) (v : Option ShiftRegister) : SimState := { st with openReg := v }
def SimState.setPending (st : SimState) (v : Option ShiftRegister) : SimState := { st with pending := v }
def SimState.setOnes (st : SimState) (v : Nat) : SimState := { st with ones := v }
def SimState.setPrev (st : SimState) (v : Option (Bit × Bit)) : SimState := { st with prev := v }
def SimState.setFault (st : SimState) (v : Option FatalRecord) : SimState := { st with fault := v }

/-- Write the latch of a kind (41_shift_registers.md R136). -/
def SimState.setLatched (st : SimState) (k : Kind) (v : Option ShiftRegister) : SimState :=
  match k with
  | .ir => { st with latchedIr := v }
  | .dr => { st with latchedDr := v }

def State.setSim (s : State) (v : SimState) : State := { s with sim := v }

/-- Append events to the log, in emission order (42_commands.md R166, R167). -/
def State.emit (s : State) (evs : List Event) : State := { s with log := s.log ++ evs }

/-- Give the machine a stream, or the next sub-batch of one: every other field is carried (20_memory.md R53,
70_reset_and_hazards.md R210). -/
def State.load (s : State) (cs : List PortInput) : State := { s with stream := cs }

/-! ### Taking the fatal error -/

/-- What an error does: `fault` holds the record and nothing else changes (60_exceptions.md R182, R183). There is no
handler and no return (R184). -/
def raiseFatal (s : State) (k : SeqIndex) (field : FieldName) : State :=
  s.setSim (s.sim.setFault (some { sequenceIndex := k, cause := .malformedCommandError, field := field }))

/-- Why the body of a command does not finish: a fatal error (42_commands.md R160), or a state for which the rules give
no effect (log entry 6). -/
inductive Abort where
  | fatal (field : FieldName)
  | stuck (reason : Fault)
deriving DecidableEq, Repr

/-- The end of a step. The writes and events of a body that finished take effect together; a fatal error discards them
all (42_commands.md R160, 20_memory.md R46). -/
def conclude (s : State) (k : SeqIndex) (result : Except Abort (SimState × List Event)) :
    Host.Outcome State Fault Refusal :=
  match result with
  | .ok (st, evs) => .next ((s.setSim st).emit evs)
  | .error (.fatal field) => .next (raiseFatal s k field)
  | .error (.stuck reason) => .fault reason

/-- What every command shares: nothing after a fatal error (42_commands.md R161), then validation before any effect
(R162), then the command's own body. -/
def applyCommand (c : Operands) (s : State) (body : Pins → Except Abort (SimState × List Event)) :
    Host.Outcome State Fault Refusal :=
  if isFaulted s.sim then .next s
  else
    match validate c with
    | .error field => conclude s c.sequenceIndex (.error (.fatal field))
    | .ok pins => conclude s c.sequenceIndex (body pins)

/-! ### Shift registers -/

/-- A new empty register (41_shift_registers.md R130). -/
def emptyRegister (k : Kind) : ShiftRegister := { kind := k, bitsOut := [], bitsIn := [], length := 0 }

/-- One bit appended to each list (41_shift_registers.md R131). -/
def appendBits (r : ShiftRegister) (b : Bit × Bit) : ShiftRegister :=
  { r with bitsOut := r.bitsOut ++ [b.1], bitsIn := r.bitsIn ++ [b.2], length := r.length + 1 }

/-- Shift: if the state before the edge is Shift-xR, the command appends one bit to each list of the open register
(41_shift_registers.md R131, R132). -/
def shiftIn (phase : SamplePhase) (pins : Pins) (st : SimState) : Except Abort SimState :=
  if isShift st.tap then
    match shiftBits phase st.prev pins with
    | .error field => .error (.fatal field)
    | .ok b =>
      match st.openReg with
      | none => .error (.stuck .shiftWithoutOpenRegister)
      | some r => .ok (st.setOpen (some (appendBits r b)))
  else .ok st

/-- Open a new register on entry to Capture-xR (41_shift_registers.md R130). -/
def openRegister (k : Kind) (st : SimState) : SimState := st.setOpen (some (emptyRegister k))

/-- Seal the open register on entry to Exit1-xR, after shifting or with length 0 (41_shift_registers.md R133, R134). -/
def sealOpen (k : SeqIndex) (st : SimState) : Except Abort (SimState × List Event) :=
  match st.openReg with
  | none => .error (.stuck .sealWithoutOpenRegister)
  | some r => .ok ((st.setPending (some r)).setOpen none, [.sealed k r])

/-- Resume: a new segment, and the previous one dropped from `pending` (41_shift_registers.md R135). -/
def resumeShift (k : Kind) (st : SimState) : SimState :=
  (st.setPending none).setOpen (some (emptyRegister k))

/-- Latch the pending register on entry to Update-xR (41_shift_registers.md R136). -/
def latch (k : SeqIndex) (kind : Kind) (st : SimState) : Except Abort (SimState × List Event) :=
  match st.pending with
  | none => .error (.stuck .latchWithoutPendingRegister)
  | some r => .ok ((st.setLatched kind (some r)).setPending none, [.latched k kind r])

/-- Entry to Test-Logic-Reset (41_shift_registers.md R137). -/
def clearRegisters (st : SimState) : SimState :=
  (((st.setOpen none).setPending none).setLatched .ir none).setLatched .dr none

/-- The effects of entering `s1` from `s0`. At most one acts per step, so their order does not matter
(41_shift_registers.md R143). -/
def enter (k : SeqIndex) (s0 s1 : TapState) (st : SimState) : Except Abort (SimState × List Event) :=
  match kindOf s1 with
  | none => if s1 = .tlr then .ok (clearRegisters st, []) else .ok (st, [])
  | some kind =>
    if isCapture s1 then .ok (openRegister kind st, [])
    else if (isShift s0 || isCapture s0) && isExit1 s1 then sealOpen k st
    else if isExit2 s0 && isShift s1 then .ok (resumeShift kind st, [])
    else if isUpdate s1 then latch k kind st
    else .ok (st, [])

/-- Every command that finishes records its data bits (10_state.md R27). -/
def recordPrev (pins : Pins) (st : SimState) : SimState := st.setPrev (some (dataBits pins))

end Sys2Proof.Machine
end

