-- ==== Sys2Proof/Machine/Passive.lean ====
section
/-! DEFINITION. The commands that do not move the TAP: NONE and FALL (42_commands.md R163, R164). -/

namespace Sys2Proof.Machine

/-- NONE: validate, then record the data bits. No event (42_commands.md R163). -/
def execNone (c : Operands) (s : State) : Host.Outcome State Fault Refusal :=
  applyCommand c s fun pins => .ok (recordPrev pins s.sim, [])

/-- FALL: validate, then record the data bits. No event (42_commands.md R164). -/
def execFall (c : Operands) (s : State) : Host.Outcome State Fault Refusal :=
  applyCommand c s fun pins => .ok (recordPrev pins s.sim, [])

end Sys2Proof.Machine
end

