-- ==== Sys2Proof/Machine/Reserved.lean ====
section
/-! DEFINITION. The reserved edge code 11 (30_encoding.md R67). -/

namespace Sys2Proof.Machine

/-- RESERVED: the edge check comes first, so the word is a fatal MalformedCommandError with field `edge`, whatever its
pin bits (30_encoding.md R67, 42_commands.md R162). After a fatal error it does nothing, as every command (R161). -/
def execReserved (c : Operands) (s : State) : Host.Outcome State Fault Refusal :=
  if isFaulted s.sim then .next s else conclude s c.sequenceIndex (.error (.fatal .edge))

end Sys2Proof.Machine
end

