-- ==== Sys2Proof/Machine/Rise.lean ====
section
/-! DEFINITION. The one command that moves the TAP: RISE (42_commands.md R165). -/

namespace Sys2Proof.Machine

/-- The body of RISE after validation, in the order of the pseudocode of 42_commands.md R165: shift, next state, count,
forced reset, `Transition` event, effects of entering the new state, `tap`, `prev`. -/
def riseBody (phase : SamplePhase) (k : SeqIndex) (pins : Pins) (st : SimState) :
    Except Abort (SimState × List Event) :=
  match shiftIn phase pins st with
  | .error e => .error e
  | .ok shifted =>
    let s0 := st.tap
    let ones := countOnes st.ones pins.modeSelect
    let s1 := forceReset ones (nextTap s0 pins.modeSelect)
    match enter k s0 s1 (shifted.setOnes ones) with
    | .error e => .error e
    | .ok (entered, evs) => .ok (recordPrev pins (entered.setTap s1), .transition k s0 s1 :: evs)

/-- RISE (42_commands.md R165). -/
def execRise (c : Operands) (s : State) : Host.Outcome State Fault Refusal :=
  applyCommand c s fun pins => riseBody s.cfg.samplePhase c.sequenceIndex pins s.sim

end Sys2Proof.Machine
end

