-- ==== Sys2Proof/Machine/Dispatch.lean ====
section
/-! DEFINITION. One arm per command (30_encoding.md R69). -/

namespace Sys2Proof.Machine

def exec (i : Instr) (s : State) : Host.Outcome State Fault Refusal :=
  match i with
  | .noEdge c => Sys2Proof.Machine.execNone c s
  | .rise c => Sys2Proof.Machine.execRise c s
  | .fall c => Sys2Proof.Machine.execFall c s
  | .reserved c => Sys2Proof.Machine.execReserved c s

end Sys2Proof.Machine
end

