-- ==== Sys2Proof/WellFormed.lean ====
section
/-! DEFINITION. When a command has a word form (30_encoding.md R66) and when a stream is well-formed
(42_commands.md R171). An ill-formed command is still a command: the block faults on it (R162). -/

namespace Sys2Proof

/-- mode_select is a bit. -/
def Operands.modeSelectOk (c : Operands) : Bool := c.modeSelect ≤ 1

/-- data_out is a bit. -/
def Operands.dataOutOk (c : Operands) : Bool := c.dataOut ≤ 1

/-- data_in is a bit. -/
def Operands.dataInOk (c : Operands) : Bool := c.dataIn ≤ 1

/-- All three pin fields hold bits, so a 5-bit word can hold them (30_encoding.md R66). -/
def Operands.pinsOk (c : Operands) : Bool := c.modeSelectOk && c.dataOutOk && c.dataInOk

/-- A command is well-formed when a command word can hold it: "A word cannot hold an out-of-range pin value"
(30_encoding.md R66). The reserved edge code is a word. -/
def Instr.wf (i : Instr) : Bool := i.operands.pinsOk

/-- A command that raises no error (42_commands.md R171): its pin values are bits and its edge code is not 11. -/
def Instr.protocolValid : Instr → Bool
  | .noEdge c => c.pinsOk
  | .rise c => c.pinsOk
  | .fall c => c.pinsOk
  | .reserved _ => false

end Sys2Proof
end

