-- ==== Sys2Proof/Decode.lean ====
section
/-! DEFINITION. Decoding of command words, bytes, records and stream entries, and after it the encoder
(30_encoding.md R65 to R69). -/

namespace Sys2Proof

/-- Bit `i` of a word, as a number (00_scope.md R8). -/
def bitAt {n : Nat} (w : BitVec n) (i : Nat) : Nat := (w.getLsbD i).toNat

/-- The edge field `w[1:0]` of a command word (30_encoding.md R66). -/
def edgeField (w : CmdWord) : BitVec 2 := w.extractLsb' 0 2

/-- The pin fields of a command word: `w[2]` data_out, `w[3]` data_in, `w[4]` mode_select (30_encoding.md R66). -/
def operandsOfWord (k : SeqIndex) (w : CmdWord) : Operands :=
  { sequenceIndex := k, dataOut := bitAt w 2, dataIn := bitAt w 3, modeSelect := bitAt w 4 }

/-- The command of a word and the sequence index beside it. Every 5-bit word selects exactly one row of the opcode map
(30_encoding.md R69); edge code 11 is the reserved row (R67). -/
def decodeWord (k : SeqIndex) (w : CmdWord) : Instr :=
  if edgeField w = 0#2 then .noEdge (operandsOfWord k w)
  else if edgeField w = 1#2 then .rise (operandsOfWord k w)
  else if edgeField w = 2#2 then .fall (operandsOfWord k w)
  else .reserved (operandsOfWord k w)

/-- The command of a record: its edge class selects the row (30_encoding.md R65, R69). The record cannot hold the
reserved code (R67). -/
def decodeRecord (c : FtdiCommand) : Instr :=
  let ops : Operands :=
    { sequenceIndex := c.sequenceIndex, dataOut := c.dataOut, dataIn := c.dataIn, modeSelect := c.modeSelect }
  match c.clockEdge with
  | .noEdge => .noEdge ops
  | .rising => .rise ops
  | .falling => .fall ops

/-- The sequence index of a command given without one: its 0-based position in the stream (30_encoding.md R62, R66).
A position that `u64` cannot hold has a free index (log entry 3). -/
def indexAt (position : Nat) : SeqIndex :=
  if position < 2 ^ 64 then BitVec.ofNat 64 position else Config.freeSeqIndex position

/-- The command that a stream entry at a position stands for (30_encoding.md R65, R66). -/
def decodeInput (position : Nat) : PortInput → Instr
  | .word (some k) w => decodeWord k w
  | .word none w => decodeWord (indexAt position) w
  | .record c => decodeRecord c

/-- Why bytes hold no command word. -/
inductive DecodeError where
  /-- There is no byte left. -/
  | truncated
  /-- The byte has a bit set above the five of a command word. -/
  | notACommandWord
deriving DecidableEq, Repr

/-- A command word kept in one byte, its three high bits zero. The spec gives no byte form of a word. DESIGN CHOICE,
safe (log entry 8). -/
def wordOfByte (b : Byte) : Except DecodeError CmdWord :=
  if b.toNat < 32 then .ok (b.setWidth 5) else .error .notACommandWord

/-- The first command of a list of bytes that each hold a command word, with the rest of the list. -/
def decodeBytes (k : SeqIndex) : List Byte → Except DecodeError (Instr × List Byte)
  | [] => .error .truncated
  | b :: rest =>
    match wordOfByte b with
    | .ok w => .ok (decodeWord k w, rest)
    | .error e => .error e

/-- The command word that `nbits` bits of value `w` hold, numbered as the opcode table numbers them: bits above the
fifth must be zero (log entry 8). -/
def tableWord (nbits w : Nat) : Option CmdWord :=
  if w % 2 ^ nbits < 32 then some (BitVec.ofNat 5 (w % 2 ^ nbits)) else none

/-- The instruction of a word of the opcode table, with sequence index 0: the index of the first word of a stream
given without indices (30_encoding.md R66). -/
def decodeTableWord (nbits w : Nat) : Option Instr :=
  match tableWord nbits w with
  | some cw =>
    match decodeBytes 0#64 [cw.setWidth 8] with
    | .ok (i, _) => some i
    | .error _ => none
  | none => none

/-- The edge code of a row (30_encoding.md R66, R67, R69). -/
def edgeCode : Instr → BitVec 2
  | .noEdge _ => 0#2
  | .rise _ => 1#2
  | .fall _ => 2#2
  | .reserved _ => 3#2

/-- The word with these pin fields and this edge code: `m i o e e`, from left to right (30_encoding.md R66). -/
def packWord (c : Operands) (code : BitVec 2) : CmdWord :=
  BitVec.ofNat 1 c.modeSelect ++ BitVec.ofNat 1 c.dataIn ++ BitVec.ofNat 1 c.dataOut ++ code

/-- The word of a well-formed command; the sequence index travels beside it. A command with an out-of-range pin value
has none (30_encoding.md R66). -/
def encode (i : Instr) : Option CmdWord :=
  if i.wf then some (packWord i.operands (edgeCode i)) else none

/-- The byte that keeps the word of a well-formed command (log entry 8). -/
def encodeBytes (i : Instr) : Option (List Byte) :=
  (encode i).map fun w => [w.setWidth 8]

end Sys2Proof
end

