-- ==== Sys2Proof/Machine/Fetch.lean ====
section
/-! DEFINITION. Taking the next command from the stream (42_commands.md R167, 10_state.md R30). -/

namespace Sys2Proof.Machine

/-- The next command, and the state with it taken from the stream and the position moved past it; none at the end of
the stream (42_commands.md R168). -/
def fetch (s : State) : Option (Instr × State) :=
  match s.stream with
  | [] => none
  | c :: rest => some (decodeInput s.position c, { s with stream := rest, position := s.position + 1 })

/-- The state with a word, beside it sequence index 0, in place of the next entry of the stream. -/
def storeNextWord (s : State) (w : CmdWord) : State :=
  { s with stream := .word (some 0#64) w :: s.stream.tail }

end Sys2Proof.Machine
end

