-- ==== Sys2Proof/Machine/Step.lean ====
section
/-! DEFINITION. One step of the machine: one turn of the fold's loop (42_commands.md R167). -/

namespace Sys2Proof.Machine

/-- Take the next command of the stream and apply it. At the end of the stream there is no step (42_commands.md R168;
log entry 4). -/
def step (s : State) : Host.Outcome State Fault Refusal :=
  match fetch s with
  | none => .fault .endOfStream
  | some (i, s') => exec i s'

/-- The state whose next command is the opcode-table word `w`, with sequence index 0, as `decodeTableWord` reads it.
A number that is no command word changes nothing. -/
def State.withFetchWord (s : State) (nbits w : Nat) : State :=
  match tableWord nbits w with
  | some cw => storeNextWord s cw
  | none => s

end Sys2Proof.Machine
end

