-- ==== Sys2Proof/Machine/Asm.lean ====
section
/-! DEFINITION. The assembly syntax: command-level statements (30_encoding.md R73) and pin-level pseudo-instructions
(R74). -/

namespace Sys2Proof.Machine

/-- One command-level statement, without its label and comment, which mean nothing (30_encoding.md R73). -/
structure Stmt where
  op : Edge
  modeSelect : Bit
  dataOut : Bit
  dataIn : Bit
  seq : Option SeqIndex
deriving DecidableEq, Repr

/-- The edge code of an operation letter (30_encoding.md R69, R73). -/
def opCode : Edge → BitVec 2
  | .noEdge => 0#2
  | .rising => 1#2
  | .falling => 2#2

/-- The stream entry of a statement: its word, and its index if it names one (30_encoding.md R66, R73). -/
def assemble (t : Stmt) : PortInput :=
  .word t.seq (packWord ⟨0#64, t.dataOut.val, t.dataIn.val, t.modeSelect.val⟩ (opCode t.op))

/-- Blank space within a line (log entry 9). -/
def isBlank (c : Char) : Bool := c == ' ' || c == '\t' || c == '\r'

/-- The characters that stand alone as tokens (log entry 9). -/
def isMark (c : Char) : Bool := c == ':' || c == '@'

/-- A line up to its comment (30_encoding.md R73). -/
def dropComment (line : List Char) : List Char := line.takeWhile (fun c => c != ';')

/-- The tokens of a line: runs of characters between blanks, and the marks (log entry 9). `cur` is the token being
read, backwards. -/
def tokensFrom (cur : List Char) : List Char → List (List Char)
  | [] => if cur.isEmpty then [] else [cur.reverse]
  | c :: rest =>
    if isBlank c then (if cur.isEmpty then [] else [cur.reverse]) ++ tokensFrom [] rest
    else if isMark c then (if cur.isEmpty then [] else [cur.reverse]) ++ [c] :: tokensFrom [] rest
    else tokensFrom (c :: cur) rest

/-- `op` (30_encoding.md R73). -/
def parseOp (t : List Char) : Option Edge :=
  if t = ['N'] then some .noEdge
  else if t = ['R'] then some .rising
  else if t = ['F'] then some .falling
  else none

/-- `ms`, `do`, `di` (30_encoding.md R73). -/
def parseBit (t : List Char) : Option Bit :=
  if t = ['0'] then some 0 else if t = ['1'] then some 1 else none

/-- The value of a decimal digit. -/
def digitVal (c : Char) : Option Nat :=
  if 48 ≤ c.toNat ∧ c.toNat ≤ 57 then some (c.toNat - 48) else none

/-- The value of decimal digits after `acc`. -/
def parseDecimal (acc : Nat) : List Char → Option Nat
  | [] => some acc
  | c :: rest =>
    match digitVal c with
    | some d => parseDecimal (10 * acc + d) rest
    | none => none

/-- `seq`: a decimal `u64` (30_encoding.md R73). -/
def parseSeq (t : List Char) : Option SeqIndex :=
  match t with
  | [] => none
  | _ :: _ =>
    match parseDecimal 0 t with
    | some n => if n < 2 ^ 64 then some (BitVec.ofNat 64 n) else none
    | none => none

/-- The four operand tokens of a statement. -/
def stmtOf (seq : Option SeqIndex) (op ms o i : List Char) : Option Stmt :=
  match parseOp op, parseBit ms, parseBit o, parseBit i with
  | some e, some m, some b, some c => some ⟨e, m, b, c, seq⟩
  | _, _, _, _ => none

/-- `op ms do di ['@' seq]`. -/
def parseBody (ts : List (List Char)) : Option Stmt :=
  match ts with
  | [op, ms, o, i] => stmtOf none op ms o i
  | [op, ms, o, i, ['@'], q] =>
    match parseSeq q with
    | some k => stmtOf (some k) op ms o i
    | none => none
  | _ => none

/-- `[label ':'] op ms do di ['@' seq] [';' comment]` (30_encoding.md R73). -/
def parseStmt (line : List Char) : Option Stmt :=
  match tokensFrom [] (dropComment line) with
  | _ :: [':'] :: ts => parseBody ts
  | ts => parseBody ts

/-- The statements of a text, one a line, as a stream (30_encoding.md R73). -/
def assembleLines : List (List Char) → Option (List PortInput)
  | [] => some []
  | line :: rest =>
    match parseStmt line, assembleLines rest with
    | some t, some cs => some (assemble t :: cs)
    | _, _ => none

/-- A pin-level statement (30_encoding.md R74). -/
inductive PinStmt where
  | byte (b : Byte)
  | pulse (ms o i : Bit)
  | reset5
  | idle
deriving DecidableEq, Repr

/-- The two bytes of a pulse: clock low, then clock high, with the same data (30_encoding.md R74). -/
def pulseBytes (ms o i : Bit) : List Byte :=
  let lo : Byte := (BitVec.ofNat 8 o.val <<< 1) ||| (BitVec.ofNat 8 i.val <<< 2) ||| (BitVec.ofNat 8 ms.val <<< 3)
  [lo, lo ||| 1#8]

/-- The bytes of a pin-level statement (30_encoding.md R74). -/
def pinBytes : PinStmt → List Byte
  | .byte b => [b]
  | .pulse ms o i => pulseBytes ms o i
  | .reset5 => (List.replicate 5 (pulseBytes 1 0 0)).flatten
  | .idle => pulseBytes 0 0 0

end Sys2Proof.Machine
end

