-- ==== Sys2Proof/Machine/Value.lean ====
section
/-! DEFINITION. The numeric reading of a bit sequence (41_shift_registers.md R138) and the serialized codes
(30_encoding.md R68, 60_exceptions.md R181). -/

namespace Sys2Proof.Machine

/-- `val(xs)`: the first bit shifted is the least significant; unsigned and unbounded (41_shift_registers.md R138). -/
def bitSeqVal : BitSeq → Nat
  | [] => 0
  | b :: rest => b.val + 2 * bitSeqVal rest

/-- The value driven into the target (41_shift_registers.md R138). -/
def drivenValue (r : ShiftRegister) : Nat := bitSeqVal r.bitsOut

/-- The value captured from the target (41_shift_registers.md R138). -/
def capturedValue (r : ShiftRegister) : Nat := bitSeqVal r.bitsIn

/-- The 4-bit code of a TAP state (30_encoding.md R68, 10_state.md R21). -/
def tapCode : TapState → BitVec 4
  | .tlr => 0
  | .rti => 1
  | .selDR => 2
  | .capDR => 3
  | .shDR => 4
  | .ex1DR => 5
  | .pauseDR => 6
  | .ex2DR => 7
  | .updDR => 8
  | .selIR => 9
  | .capIR => 10
  | .shIR => 11
  | .ex1IR => 12
  | .pauseIR => 13
  | .ex2IR => 14
  | .updIR => 15

/-- The states in the order of their codes. -/
def tapStates : List TapState :=
  [.tlr, .rti, .selDR, .capDR, .shDR, .ex1DR, .pauseDR, .ex2DR, .updDR,
    .selIR, .capIR, .shIR, .ex1IR, .pauseIR, .ex2IR, .updIR]

/-- The state of a code: all 16 are used (30_encoding.md R68). -/
def tapOfCode (c : BitVec 4) : TapState := tapStates.getD c.toNat .tlr

/-- The one-bit code of a register kind (30_encoding.md R68). -/
def kindCode : Kind → Bit
  | .dr => 0
  | .ir => 1

/-- The error names of the whole pipeline (60_exceptions.md R181); only the first can come from the block. -/
inductive PipelineError where
  | malformedCommand
  | malformedTrace
  | interfaceNotFound
  | unexpectedPayloadLength
  | unknownInstruction
  | unexpectedDrLength
deriving DecidableEq, Repr

/-- The codes of the pipeline's errors (60_exceptions.md R181). -/
def errorCode : PipelineError → BitVec 8
  | .malformedCommand => 0x01
  | .malformedTrace => 0x10
  | .interfaceNotFound => 0x11
  | .unexpectedPayloadLength => 0x12
  | .unknownInstruction => 0x20
  | .unexpectedDrLength => 0x21

/-- The code in a fault record (60_exceptions.md R181, R182). -/
def causeCode : FatalCause → BitVec 8
  | .malformedCommandError => errorCode .malformedCommand

end Sys2Proof.Machine
end

