-- ==== Sys2Proof/Machine/FrontEnd.lean ====
section
/-! DEFINITION. The input port's front end: pin-sample bytes to commands (30_encoding.md R60 to R64). -/

namespace Sys2Proof.Machine

/-- One pin sample (30_encoding.md R60). -/
structure PinSample where
  clock : Bit
  dataOut : Bit
  dataIn : Bit
  modeSelect : Bit
deriving DecidableEq, Repr

/-- The level of one pin in a pin-sample byte. -/
def pinLevel (b : Byte) (pin : Nat) : Bit := if b.getLsbD pin then 1 else 0

/-- The sample a byte encodes; bits 7 to 4 are ignored (30_encoding.md R60, R61). -/
def pinSample (b : Byte) : PinSample :=
  { clock := pinLevel b Config.clockPin, dataOut := pinLevel b Config.dataOutPin,
    dataIn := pinLevel b Config.dataInPin, modeSelect := pinLevel b Config.modeSelectPin }

/-- The edge class of a sample, by its clock bit and that of the sample before it, if there is one
(30_encoding.md R63). -/
def classifyEdge (before : Option Bit) (now : Bit) : Edge :=
  match before with
  | none => .noEdge
  | some b => if b = now then .noEdge else if b = 0 then .rising else .falling

/-- The command of a sample (30_encoding.md R64). -/
def commandOfSample (k : SeqIndex) (e : Edge) (p : PinSample) : FtdiCommand :=
  { sequenceIndex := k, clockEdge := e, dataOut := p.dataOut.val, dataIn := p.dataIn.val,
    modeSelect := p.modeSelect.val }

/-- The commands of the samples from position `k` on, `before` being the clock bit of the sample before them. -/
def frontEndFrom (before : Option Bit) (k : Nat) : List Byte → List FtdiCommand
  | [] => []
  | b :: rest =>
    commandOfSample (indexAt k) (classifyEdge before (pinSample b).clock) (pinSample b) ::
      frontEndFrom (some (pinSample b).clock) (k + 1) rest

/-- The commands of a whole trace, given as its payloads in capture order: one command per byte
(30_encoding.md R62, R64; 20_memory.md R43). -/
def frontEnd (payloads : List (List Byte)) : List FtdiCommand := frontEndFrom none 0 payloads.flatten

end Sys2Proof.Machine
end

