-- ==== Sys2Proof/Machine/Run.lean ====
section
/-! DEFINITION. A whole run: the left fold of 42_commands.md R167, over `step`; and commands applied one after another
to a state (20_memory.md R48). -/

namespace Sys2Proof.Machine

/-- What a run returns (42_commands.md R167). `stopped` and `refused` are the model's own stops, which no run from
reset meets. -/
inductive RunResult where
  | completed (st : SimState) (log : List Event)
  | fatal (record : FatalRecord)
  | stopped (reason : Fault)
  | refused (reason : Refusal)
deriving DecidableEq, Repr

/-- `n` turns of the loop: a fatal error returns only its record, the end returns the state and the whole log
(42_commands.md R167). -/
def runLoop : Nat → State → RunResult
  | 0, s => .completed s.sim s.log
  | n + 1, s =>
    match step s with
    | .next t =>
      match t.sim.fault with
      | some record => .fatal record
      | none => runLoop n t
    | .fault reason => .stopped reason
    | .refused reason => .refused reason

/-- A run of one whole command stream from the reset state (42_commands.md R167). -/
def run (phase : SamplePhase) (cs : List PortInput) : RunResult :=
  runLoop cs.length ((State.resetWith phase).load cs)

/-- A run of the commands of a captured trace (30_encoding.md R62 to R64). -/
def runTrace (phase : SamplePhase) (payloads : List (List Byte)) : RunResult :=
  run phase ((frontEnd payloads).map .record)

/-- Commands applied one at a time, in order, each to the state the one before it left (20_memory.md R48). -/
def execAll : List Instr → State → Host.Outcome State Fault Refusal
  | [], s => .next s
  | i :: rest, s =>
    match exec i s with
    | .next t => execAll rest t
    | .fault reason => .fault reason
    | .refused reason => .refused reason

end Sys2Proof.Machine
end

