-- ==== Sys2Proof/Safety.lean ====
section
/-! DEFINITION. What holds of the state after every completed step (10_state.md R22, R23, R24, R26;
95_test_vectors.md section 4): the invariant in whose terms safety is stated. -/

namespace Sys2Proof.Machine

/-- `tap ∈ {CapDR, ShDR, CapIR, ShIR}`: the states in which a register is open (10_state.md R22). -/
def holdsOpen (s : TapState) : Bool := isCapture s || isShift s

/-- `tap ∈ {Ex1DR, PauseDR, Ex2DR, Ex1IR, PauseIR, Ex2IR}`: the states in which a register is pending
(10_state.md R24). -/
def holdsPending (s : TapState) : Bool := isExit1 s || isPause s || isExit2 s

/-- `length = len(bits_out) = len(bits_in)` (10_state.md R23). -/
def lengthsAgree (r : ShiftRegister) : Prop := r.length = r.bitsOut.length ∧ r.length = r.bitsIn.length

/-- `n` Rising edges with mode_select = 1, from a TAP state. -/
def onesWalk : Nat → TapState → TapState
  | 0, s => s
  | n + 1, s => onesWalk n (nextTap s 1)

/-- The TAP state after Rising edges with these mode_select values, for any TAP that follows the graph
(70_reset_and_hazards.md R204). -/
def tapWalk (s : TapState) (ms : List Bit) : TapState := ms.foldl nextTap s

/-- The mode_select values of the Rising commands of a list, in order; the pin fields of a validated command are bits. -/
def risingModes : List Instr → List Bit
  | [] => []
  | .rise c :: rest =>
    match pinBit c.modeSelect with
    | some m => m :: risingModes rest
    | none => risingModes rest
  | .noEdge _ :: rest => risingModes rest
  | .fall _ :: rest => risingModes rest
  | .reserved _ :: rest => risingModes rest

/-- Validated operands: pin fields that hold the bits data_out, data_in and mode_select. -/
def bitOperands (k : SeqIndex) (dataOut dataIn modeSelect : Bit) : Operands :=
  { sequenceIndex := k, dataOut := dataOut.val, dataIn := dataIn.val, modeSelect := modeSelect.val }

/-- What a shift needs: a RISE in Shift-xR has an open register and, under BeforeEdge, a command before it
(41_shift_registers.md R131, R132). Nothing is asked in another state. -/
def ShiftReady (s : State) : Prop :=
  isShift s.sim.tap = true → s.sim.openReg.isSome = true ∧ (s.cfg.samplePhase = .onEdge ∨ s.sim.prev.isSome = true)

/-- Not a NONE: what is kept of a command list whose None entries are dropped (42_commands.md R172). -/
def Instr.notNone : Instr → Bool
  | .noEdge _ => false
  | .rise _ => true
  | .fall _ => true
  | .reserved _ => true

/-- The `Transition` events of a log (42_commands.md R166). -/
def transitionsOf : List Event → List Event
  | [] => []
  | .transition k a b :: rest => .transition k a b :: transitionsOf rest
  | .sealed _ _ :: rest => transitionsOf rest
  | .latched _ _ _ :: rest => transitionsOf rest

/-- The registers of the `Sealed` events of a log. -/
def sealedOf : List Event → List ShiftRegister
  | [] => []
  | .transition _ _ _ :: rest => sealedOf rest
  | .sealed _ r :: rest => r :: sealedOf rest
  | .latched _ _ _ :: rest => sealedOf rest

/-- The data bits of a command, if its pin fields are bits. -/
def commandBits (i : Instr) : Option (Bit × Bit) :=
  match pinBit i.operands.dataOut, pinBit i.operands.dataIn with
  | some o, some n => some (o, n)
  | _, _ => none

/-- The pair of bits each Rising command of a list samples, in order: its own under OnEdge, those of the command just
before it under BeforeEdge, `before` being those of the command before the list (41_shift_registers.md R132). -/
def sampledBits (phase : SamplePhase) (before : Option (Bit × Bit)) : List Instr → List (Option (Bit × Bit))
  | [] => []
  | .rise c :: rest =>
    (match phase with
      | .onEdge => commandBits (.rise c)
      | .beforeEdge => before) :: sampledBits phase (commandBits (.rise c)) rest
  | .noEdge c :: rest => sampledBits phase (commandBits (.noEdge c)) rest
  | .fall c :: rest => sampledBits phase (commandBits (.fall c)) rest
  | .reserved c :: rest => sampledBits phase (commandBits (.reserved c)) rest

/-- Every Rising command of a list has the data bits of the command just before it: the data do not change between the
last clock-low sample and the Rising sample (70_reset_and_hazards.md R205). -/
def dataSteady (before : Option (Bit × Bit)) : List Instr → Prop
  | [] => True
  | .rise c :: rest => before = commandBits (.rise c) ∧ dataSteady (commandBits (.rise c)) rest
  | .noEdge c :: rest => dataSteady (commandBits (.noEdge c)) rest
  | .fall c :: rest => dataSteady (commandBits (.fall c)) rest
  | .reserved c :: rest => dataSteady (commandBits (.reserved c)) rest

/-- The invariant of the block's record. -/
structure SimState.Inv (st : SimState) : Prop where
  /-- a register is open exactly in Capture-xR and Shift-xR (10_state.md R22) -/
  open_iff : st.openReg.isSome = holdsOpen st.tap
  /-- and it has the kind of the state (R22) -/
  open_kind : ∀ r, st.openReg = some r → kindOf st.tap = some r.kind
  /-- a register open in Capture-xR is empty: nothing has been shifted (41_shift_registers.md R130) -/
  capture_empty : isCapture st.tap = true → ∀ r, st.openReg = some r → r = emptyRegister r.kind
  /-- a register is pending exactly from Exit1-xR to Exit2-xR (10_state.md R24) -/
  pending_iff : st.pending.isSome = holdsPending st.tap
  /-- and it has the kind of the state (R24) -/
  pending_kind : ∀ r, st.pending = some r → kindOf st.tap = some r.kind
  /-- the latches have their kinds (41_shift_registers.md R136) -/
  latchedIr_kind : ∀ r, st.latchedIr = some r → r.kind = .ir
  latchedDr_kind : ∀ r, st.latchedDr = some r → r.kind = .dr
  /-- `length = len(bits_out) = len(bits_in)` for every register held (10_state.md R23) -/
  open_lengths : ∀ r, st.openReg = some r → lengthsAgree r
  pending_lengths : ∀ r, st.pending = some r → lengthsAgree r
  latchedIr_lengths : ∀ r, st.latchedIr = some r → lengthsAgree r
  latchedDr_lengths : ∀ r, st.latchedDr = some r → lengthsAgree r
  /-- `0 ≤ ones ≤ 5` (10_state.md R26) -/
  ones_range : st.ones ≤ Config.resetOnes
  /-- the last `ones` Rising edges all had mode_select = 1 (10_state.md R26) -/
  ones_walk : ∃ s, st.tap = onesWalk st.ones s
  /-- no command has been applied only in the reset state (95_test_vectors.md section 4) -/
  prev_none : st.prev = none → st.tap = .tlr ∧ st.ones = 0 ∧ st.latchedIr = none ∧ st.latchedDr = none

/-- The invariant of the machine: that of the block's record, and every register in an event of the log is whole. -/
structure State.Inv (s : State) : Prop where
  sim : s.sim.Inv
  sealed_lengths : ∀ k r, Event.sealed k r ∈ s.log → lengthsAgree r
  latched_whole : ∀ k kind r, Event.latched k kind r ∈ s.log → lengthsAgree r ∧ r.kind = kind

end Sys2Proof.Machine
end

