-- ==== Sys2Proof/Certificates/Slice0/Obligations.lean ====
section
/-! DEFINITION. The statements for the provers. -/

open Sys2Proof Sys2Proof.Machine

/-! ### Encoding and the input port -/

/-- The words of 95_test_vectors.md section 2.1, read by the decoder. -/
def Obligations.SpecWordsDecode : Prop :=
  decodeTableWord 8 0x00 = some (.noEdge (bitOperands 0 0 0 0)) ∧
  decodeTableWord 8 0x11 = some (.rise (bitOperands 0 0 0 1)) ∧
  decodeTableWord 8 0x1E = some (.fall (bitOperands 0 1 1 1)) ∧
  decodeTableWord 8 0x0D = some (.rise (bitOperands 0 1 1 0)) ∧
  decodeTableWord 8 0x06 = some (.fall (bitOperands 0 1 0 0)) ∧
  decodeTableWord 8 0x03 = some (.reserved (bitOperands 0 0 0 0)) ∧
  decodeTableWord 8 0x1F = some (.reserved (bitOperands 0 1 1 1))

/-- R69: every 5-bit word selects exactly one row, by its match and mask; the pin bits are operands (their places:
R66). The four cases exclude one another, so each word has one row. -/
def Obligations.EveryWordSelectsOneRow : Prop :=
  ∀ (k : SeqIndex) (w : CmdWord),
    let c : Operands :=
      ⟨k, (w.toNat / 4) % 2, (w.toNat / 8) % 2, w.toNat / 16⟩
    (w &&& 3#5 = 0#5 ∧ decodeWord k w = .noEdge c) ∨
    (w &&& 3#5 = 1#5 ∧ decodeWord k w = .rise c) ∨
    (w &&& 3#5 = 2#5 ∧ decodeWord k w = .fall c) ∨
    (w &&& 3#5 = 3#5 ∧ decodeWord k w = .reserved c)

/-- Decode and encode agree: the word of every well-formed command decodes, with the index beside it, to that command,
and a command with an out-of-range pin value has no word. -/
def Obligations.DecodeInvertsEncode : Prop :=
  ∀ i : Instr,
    (i.wf = true → ∃ w, encode i = some w ∧ decodeWord i.operands.sequenceIndex w = i) ∧
    (i.wf = false → encode i = none ∧ ∀ k w, decodeWord k w ≠ i)

/-- Encode and decode agree: every word is the word of the command it decodes to. -/
def Obligations.EncodeInvertsDecode : Prop :=
  ∀ (k : SeqIndex) (w : CmdWord), encode (decodeWord k w) = some w

/-- The command of a stream entry (R65, R66): a record by its edge and fields, a word by the index beside it or, without
one, by its position, where `u64` can hold it. (Beyond that the index is a free value: the model's choice, log
entry 3.) -/
def Obligations.StreamEntryDecodes : Prop :=
  (∀ (p : Nat) (k : SeqIndex) (w : CmdWord), decodeInput p (.word (some k) w) = decodeWord k w) ∧
  (∀ (p : Nat) (w : CmdWord), p < 2 ^ 64 → ∃ k : SeqIndex, k.toNat = p ∧ decodeInput p (.word none w) = decodeWord k w) ∧
  (∀ (p : Nat) (k : SeqIndex) (o i m : Nat),
    decodeInput p (.record ⟨k, .noEdge, o, i, m⟩) = .noEdge ⟨k, o, i, m⟩ ∧
    decodeInput p (.record ⟨k, .rising, o, i, m⟩) = .rise ⟨k, o, i, m⟩ ∧
    decodeInput p (.record ⟨k, .falling, o, i, m⟩) = .fall ⟨k, o, i, m⟩)

/-- R60, R63, R64: every sample of the concatenated trace yields one command, with its position as index, the edge that
its clock bit and the clock bit before it give, and its own data and mode_select bits. -/
def Obligations.FrontEndClassifiesEverySample : Prop :=
  ∀ (payloads : List (List Byte)),
    (frontEnd payloads).length = payloads.flatten.length ∧
    ∀ (k : Nat) (b : Byte), payloads.flatten[k]? = some b →
      ∃ c : FtdiCommand, (frontEnd payloads)[k]? = some c ∧
        (k < 2 ^ 64 → c.sequenceIndex.toNat = k) ∧
        c.dataOut = (b.toNat / 2) % 2 ∧ c.dataIn = (b.toNat / 4) % 2 ∧ c.modeSelect = (b.toNat / 8) % 2 ∧
        (k = 0 → c.clockEdge = .noEdge) ∧
        (∀ (j : Nat) (a : Byte), k = j + 1 → payloads.flatten[j]? = some a →
          (a.toNat % 2 = 0 ∧ b.toNat % 2 = 1 → c.clockEdge = .rising) ∧
          (a.toNat % 2 = 1 ∧ b.toNat % 2 = 0 → c.clockEdge = .falling) ∧
          (a.toNat % 2 = b.toNat % 2 → c.clockEdge = .noEdge))

/-- R61: bits 7 to 4 of a pin-sample byte take no part in any field. -/
def Obligations.HighPinBitsIgnored : Prop :=
  ∀ (payloads : List (List Byte)),
    frontEnd (payloads.map (List.map fun b => b &&& 0x0F#8)) = frontEnd payloads

/-- The front end never gives two Rising commands with no Falling one between them, nor two Falling with no Rising
(30_encoding.md R63; 42_commands.md R169 says it never produces such a stream). -/
def Obligations.FrontEndAlternatesEdges : Prop :=
  ∀ (payloads : List (List Byte)),
    List.IsChain (fun a b => a ≠ b)
      (((frontEnd payloads).map FtdiCommand.clockEdge).filter fun e => e != .noEdge)

/-- The pin-level syntax (R74): the bytes of each statement, those of a PULSE being `lo` and `lo | 1` whatever its bits
(`lo` is even, so `lo | 1` is `lo + 1`), and the two commands of a PULSE, the first NONE or FALL by the clock before
it. -/
def Obligations.PulseGivesTwoCommands : Prop :=
  (∀ b, pinBytes (.byte b) = [b]) ∧
  pinBytes .reset5 = [0x08, 0x09, 0x08, 0x09, 0x08, 0x09, 0x08, 0x09, 0x08, 0x09] ∧
  pinBytes .idle = [0x00, 0x01] ∧
  (∀ m o i : Bit, pinBytes (.pulse m o i) =
    [BitVec.ofNat 8 (2 * o.val + 4 * i.val + 8 * m.val), BitVec.ofNat 8 (2 * o.val + 4 * i.val + 8 * m.val + 1)]) ∧
  ∀ (before : Option Bit) (k : Nat) (m o i : Bit),
    frontEndFrom before k (pinBytes (.pulse m o i)) =
      [⟨indexAt k, if before = some 1 then .falling else .noEdge, o.val, i.val, m.val⟩,
       ⟨indexAt (k + 1), .rising, o.val, i.val, m.val⟩]

/-- The command-level syntax (R73): the entry a statement assembles to decodes to the command it names, with the index
it gives or its position. -/
def Obligations.StatementAssemblesToItsCommand : Prop :=
  ∀ (p : Nat) (t : Stmt),
    let c : Operands := bitOperands (t.seq.getD (indexAt p)) t.dataOut t.dataIn t.modeSelect
    (t.op = .noEdge → decodeInput p (assemble t) = .noEdge c) ∧
    (t.op = .rising → decodeInput p (assemble t) = .rise c) ∧
    (t.op = .falling → decodeInput p (assemble t) = .fall c)

/-! ### Codes, values, reset -/

/-- R68: the 16 states have the 16 codes, in the spec's order; DR is 0 and IR is 1. Beside it the error codes of R181:
0x01 is that of the cause this block raises; the other numbers are kept for the rest of the pipeline. -/
def Obligations.StateCodesAreAllUsed : Prop :=
  (∀ c : BitVec 4, tapCode (tapOfCode c) = c) ∧ (∀ s : TapState, tapOfCode (tapCode s) = s) ∧
  ([.tlr, .rti, .selDR, .capDR, .shDR, .ex1DR, .pauseDR, .ex2DR, .updDR, .selIR, .capIR, .shIR, .ex1IR, .pauseIR,
    .ex2IR, .updIR] : List TapState).map tapCode = (List.range 16).map (BitVec.ofNat 4) ∧
  kindCode .dr = 0 ∧ kindCode .ir = 1 ∧
  causeCode .malformedCommandError = 0x01 ∧
  ([.malformedCommand, .malformedTrace, .interfaceNotFound, .unexpectedPayloadLength, .unknownInstruction,
    .unexpectedDrLength] : List PipelineError).map errorCode = [0x01, 0x10, 0x11, 0x12, 0x20, 0x21]

/-- R138: the value of a bit sequence is the sum of its bits by their weights; the first bit shifted is the least
significant. -/
def Obligations.ValueIsWeightedSum : Prop :=
  (∀ xs : BitSeq,
    bitSeqVal xs = ((List.range xs.length).map fun i => (xs.getD i 0).val * 2 ^ i).sum) ∧
  bitSeqVal [] = 0 ∧ bitSeqVal [0, 1, 1, 0] = 6 ∧
  ∀ r : ShiftRegister, drivenValue r = bitSeqVal r.bitsOut ∧ capturedValue r = bitSeqVal r.bitsIn

/-- R200: the reset state, whatever the run's phase. (That no command is loaded is the model's choice, log entry 2, and
not stated.) -/
def Obligations.ResetStateValues : Prop :=
  (∀ p : SamplePhase, (State.resetWith p).sim = SimState.reset ∧ (State.resetWith p).cfg.samplePhase = p) ∧
  State.reset.sim = SimState.reset ∧
  SimState.reset.tap = .tlr ∧ SimState.reset.openReg = none ∧ SimState.reset.pending = none ∧
  SimState.reset.latchedIr = none ∧ SimState.reset.latchedDr = none ∧ SimState.reset.ones = 0 ∧
  SimState.reset.prev = none ∧ SimState.reset.fault = none

/-! ### NONE, FALL, RESERVED, validation and the fatal error -/

/-- R163, whole: NONE's encoding, its effect (only `prev`, no event) and its errors. -/
def Obligations.NoneWritesOnlyPrev : Prop :=
  (∀ (k : SeqIndex) (w : CmdWord), w.extractLsb' 0 2 = 0#2 →
    decodeWord k w = .noEdge ⟨k, bitAt w 2, bitAt w 3, bitAt w 4⟩) ∧
  (∀ (k : SeqIndex) (o i m : Nat), decodeRecord ⟨k, .noEdge, o, i, m⟩ = .noEdge ⟨k, o, i, m⟩) ∧
  ∀ s : State, s.sim.fault = none →
    (∀ (k : SeqIndex) (o i m : Bit),
      exec (.noEdge (bitOperands k o i m)) s = .next { s with sim := { s.sim with prev := some (o, i) } }) ∧
    (∀ c : Operands, c.pinsOk = false → ∃ f,
      exec (.noEdge c) s =
        .next { s with sim := { s.sim with fault := some ⟨c.sequenceIndex, .malformedCommandError, f⟩ } })

/-- R164, whole: FALL's encoding, its effect (only `prev`, no event) and its errors. -/
def Obligations.FallWritesOnlyPrev : Prop :=
  (∀ (k : SeqIndex) (w : CmdWord), w.extractLsb' 0 2 = 2#2 →
    decodeWord k w = .fall ⟨k, bitAt w 2, bitAt w 3, bitAt w 4⟩) ∧
  (∀ (k : SeqIndex) (o i m : Nat), decodeRecord ⟨k, .falling, o, i, m⟩ = .fall ⟨k, o, i, m⟩) ∧
  ∀ s : State, s.sim.fault = none →
    (∀ (k : SeqIndex) (o i m : Bit),
      exec (.fall (bitOperands k o i m)) s = .next { s with sim := { s.sim with prev := some (o, i) } }) ∧
    (∀ c : Operands, c.pinsOk = false → ∃ f,
      exec (.fall c) s =
        .next { s with sim := { s.sim with fault := some ⟨c.sequenceIndex, .malformedCommandError, f⟩ } })

/-- R67, whole: a word with edge code 11 is the reserved command, which is a fatal error with field `edge` and no other
effect; a record cannot hold the code. -/
def Obligations.ReservedCodeRaisesEdgeError : Prop :=
  (∀ (k : SeqIndex) (w : CmdWord), w.extractLsb' 0 2 = 3#2 → ∃ c, c.sequenceIndex = k ∧ decodeWord k w = .reserved c) ∧
  (∀ (r : FtdiCommand) (c : Operands), decodeRecord r ≠ .reserved c) ∧
  ∀ (s : State) (c : Operands), s.sim.fault = none →
    exec (.reserved c) s =
      .next { s with sim := { s.sim with fault := some ⟨c.sequenceIndex, .malformedCommandError, .edge⟩ } }

/-- R162 (with the order of R185): every command is validated before it has any effect; the first check that fails
names the field, and only `fault` changes. -/
def Obligations.ValidationNamesFirstBadField : Prop :=
  ∀ (s : State) (c : Operands), s.sim.fault = none →
    let fatal := fun f : FieldName =>
      Host.Outcome.next (φ := Fault) (ρ := Refusal)
        { s with sim := { s.sim with fault := some ⟨c.sequenceIndex, .malformedCommandError, f⟩ } }
    exec (.reserved c) s = fatal .edge ∧
    ∀ i : Instr, i = .noEdge c ∨ i = .fall c ∨ i = .rise c →
      (1 < c.modeSelect → exec i s = fatal .modeSelect) ∧
      (c.modeSelect ≤ 1 → 1 < c.dataOut → exec i s = fatal .dataOut) ∧
      (c.modeSelect ≤ 1 → c.dataOut ≤ 1 → 1 < c.dataIn → exec i s = fatal .dataIn)

/-- R161: after a fatal error every command leaves the state and the log as they are. -/
def Obligations.FaultedStateIgnoresCommands : Prop :=
  ∀ (s : State) (i : Instr), s.sim.fault ≠ none → exec i s = .next s

/-- No command clears `fault` (60_exceptions.md section 2): however many steps a faulted machine takes, the block's
record and the log stay. (That it goes on taking commands from its stream is the model's, log entry 5.) -/
def Obligations.FaultIsNeverCleared : Prop :=
  ∀ (n : Nat) (s : State), s.sim.fault ≠ none → n ≤ s.stream.length →
    ∃ t, Host.Core.run Sys2Proof.core n s = .next t ∧ t.sim = s.sim ∧ t.log = s.log

/-! ### RISE: the TAP -/

/-- R92, R96, the rows the source quotes: Test-Logic-Reset, and Shift-DR where a shift can take place. In Shift-DR the
row for mode_select = 1 is that of the graph where the count of ones stays below five (R111 otherwise). -/
def Obligations.QuotedGraphRows : Prop :=
  ∀ (s : State) (k : SeqIndex) (o i : Bit), s.sim.fault = none →
    (s.sim.tap = .tlr →
      (∃ t, exec (.rise (bitOperands k o i 0)) s = .next t ∧ t.sim.tap = .rti) ∧
      (∃ t, exec (.rise (bitOperands k o i 1)) s = .next t ∧ t.sim.tap = .tlr)) ∧
    (s.sim.tap = .shDR → ShiftReady s →
      (∃ t, exec (.rise (bitOperands k o i 0)) s = .next t ∧ t.sim.tap = .shDR) ∧
      (s.sim.ones < 4 → ∃ t, exec (.rise (bitOperands k o i 1)) s = .next t ∧ t.sim.tap = .ex1DR))

/-- The whole graph, row by row as the table after R107 writes it. Of its 32 rows the source quotes four; the spec
supplies the others from general knowledge (93_implementation_defined.md G1). -/
def Obligations.RiseFollowsGraphTable : Prop :=
  ∀ (a b0 b1 : TapState),
    (a, b0, b1) ∈ ([(.tlr, .rti, .tlr), (.rti, .rti, .selDR), (.selDR, .capDR, .selIR), (.capDR, .shDR, .ex1DR),
      (.shDR, .shDR, .ex1DR), (.ex1DR, .pauseDR, .updDR), (.pauseDR, .pauseDR, .ex2DR), (.ex2DR, .shDR, .updDR),
      (.updDR, .rti, .selDR), (.selIR, .capIR, .tlr), (.capIR, .shIR, .ex1IR), (.shIR, .shIR, .ex1IR),
      (.ex1IR, .pauseIR, .updIR), (.pauseIR, .pauseIR, .ex2IR), (.ex2IR, .shIR, .updIR),
      (.updIR, .rti, .selDR)] : List (TapState × TapState × TapState)) →
    ∀ (s : State) (k : SeqIndex) (o i : Bit), s.sim.Inv → s.sim.fault = none → s.sim.tap = a →
      (∃ t, exec (.rise (bitOperands k o i 0)) s = .next t ∧ t.sim.tap = b0) ∧
      (∃ t, exec (.rise (bitOperands k o i 1)) s = .next t ∧ t.sim.tap = b1)

/-- R108: only a Rising command changes `tap`; a Rising command that raises no error makes exactly one transition, that
of the graph, which the forced reset may override. -/
def Obligations.OnlyRisingEdgesMoveTap : Prop :=
  (∀ (i : Instr) (s t : State), exec i s = .next t → (∀ c, i ≠ .rise c) → t.sim.tap = s.sim.tap) ∧
  (∀ (s t : State) (k : SeqIndex) (o i m : Bit), s.sim.fault = none → t.sim.fault = none →
    exec (.rise (bitOperands k o i m)) s = .next t →
      t.sim.tap = if m = 1 ∧ 4 ≤ s.sim.ones then .tlr else nextTap s.sim.tap m)

/-- R110: `ones` goes up by one, to at most five, at a Rising command with mode_select = 1, to zero at one with
mode_select = 0, and stays at every other command. Reset value 0. -/
def Obligations.OnesCountsRisingOnes : Prop :=
  (∀ p, (State.resetWith p).sim.ones = 0) ∧
  (∀ (i : Instr) (s t : State), exec i s = .next t → (∀ c, i ≠ .rise c) → t.sim.ones = s.sim.ones) ∧
  (∀ (s t : State) (k : SeqIndex) (o i m : Bit), s.sim.fault = none → t.sim.fault = none →
    exec (.rise (bitOperands k o i m)) s = .next t →
      t.sim.ones = if m = 1 then min (s.sim.ones + 1) 5 else 0)

/-- The forced reset is redundant with the graph (the spec's own inference, R112): where it acts, in a state that meets
the invariant, the graph gives Test-Logic-Reset too. -/
def Obligations.ForcedResetIsRedundant : Prop :=
  ∀ (s : State), s.sim.Inv → 4 ≤ s.sim.ones → nextTap s.sim.tap 1 = .tlr

/-- R165's completion: from every state that meets the invariant a Rising command with bits in its pin fields completes,
moves the TAP by the graph, counts, records its data bits, reports one transition and then at most one register, and
leaves everything outside the block's record and the log alone. -/
def Obligations.RiseCompletes : Prop :=
  ∀ (s : State) (k : SeqIndex) (o i m : Bit), s.sim.Inv → s.sim.fault = none →
    ∃ t evs, exec (.rise (bitOperands k o i m)) s = .next t ∧
      t.sim.tap = nextTap s.sim.tap m ∧ t.sim.ones = (if m = 1 then min (s.sim.ones + 1) 5 else 0) ∧
      t.sim.prev = some (o, i) ∧ t.sim.fault = none ∧
      t.log = s.log ++ .transition k s.sim.tap (nextTap s.sim.tap m) :: evs ∧ evs.length ≤ 1 ∧
      t.cfg = s.cfg ∧ t.stream = s.stream ∧ t.position = s.position

/-- A Rising edge that touches no register: it leaves a state that is not Shift-xR for one that is not Capture-xR,
Exit1-xR, Update-xR or Test-Logic-Reset, and does not leave Exit2-xR. `tap`, `ones`, `prev` and one event; nothing else
(42_commands.md R165, 41_shift_registers.md R143). -/
def Obligations.RiseElsewhereTouchesNoRegister : Prop :=
  ∀ (s : State) (k : SeqIndex) (o i m : Bit), s.sim.fault = none → (m = 1 → s.sim.ones < 4) →
    isShift s.sim.tap = false → isCapture (nextTap s.sim.tap m) = false → isExit1 (nextTap s.sim.tap m) = false →
    isUpdate (nextTap s.sim.tap m) = false → nextTap s.sim.tap m ≠ .tlr →
    isExit2 s.sim.tap = false →
    exec (.rise (bitOperands k o i m)) s =
      .next { s with
        sim := { s.sim with
          tap := nextTap s.sim.tap m, ones := if m = 1 then s.sim.ones + 1 else 0, prev := some (o, i) }
        log := s.log ++ [.transition k s.sim.tap (nextTap s.sim.tap m)] }

/-! ### RISE: the registers -/

/-- R130: entering Capture-xR opens a new empty register of its kind. -/
def Obligations.CaptureOpensEmptyRegister : Prop :=
  ∀ (s : State) (k : SeqIndex) (o i : Bit) (sel cap : TapState) (kind : Kind), s.sim.fault = none →
    ((sel, cap, kind) = (.selDR, .capDR, .dr) ∨ (sel, cap, kind) = (.selIR, .capIR, .ir)) → s.sim.tap = sel →
    exec (.rise (bitOperands k o i 0)) s =
      .next { s with
        sim := { s.sim with
          tap := cap, openReg := some { kind := kind, bitsOut := [], bitsIn := [], length := 0 }, ones := 0,
          prev := some (o, i) }
        log := s.log ++ [.transition k sel cap] }

/-- R131, R132: a Rising edge taken in Shift-xR appends one bit to each list of the open register: the command's own
bits under OnEdge, those of the command before it under BeforeEdge. Stated for the edge that stays; the edge that
leaves is in `ExitSealsRegister`. Under BeforeEdge with no command before it, the error names the phase. -/
def Obligations.ShiftAppendsSampledBits : Prop :=
  ∀ (s : State) (k : SeqIndex) (o i : Bit) (r : ShiftRegister), s.sim.fault = none → isShift s.sim.tap = true →
    (∀ bo bi : Bit, s.sim.openReg = some r →
      (s.cfg.samplePhase = .onEdge ∧ (bo, bi) = (o, i) ∨
        s.cfg.samplePhase = .beforeEdge ∧ s.sim.prev = some (bo, bi)) →
      exec (.rise (bitOperands k o i 0)) s =
        .next { s with
          sim := { s.sim with
            openReg := some { r with
              bitsOut := r.bitsOut ++ [bo], bitsIn := r.bitsIn ++ [bi], length := r.length + 1 }
            ones := 0, prev := some (o, i) }
          log := s.log ++ [.transition k s.sim.tap s.sim.tap] }) ∧
    (∀ m : Bit, s.cfg.samplePhase = .beforeEdge → s.sim.prev = none →
      exec (.rise (bitOperands k o i m)) s =
        .next { s with sim := { s.sim with fault := some ⟨k, .malformedCommandError, .phase⟩ } })

/-- The edge that enters Shift-xR from Capture-xR shifts nothing (R131). -/
def Obligations.EnteringShiftAppendsNothing : Prop :=
  ∀ (s : State) (k : SeqIndex) (o i : Bit) (cap sh : TapState), s.sim.fault = none →
    ((cap, sh) = (.capDR, .shDR) ∨ (cap, sh) = (.capIR, .shIR)) → s.sim.tap = cap →
    exec (.rise (bitOperands k o i 0)) s =
      .next { s with
        sim := { s.sim with tap := sh, ones := 0, prev := some (o, i) }
        log := s.log ++ [.transition k cap sh] }

/-- R133 (with the exiting edge of R131): the edge that leaves Shift-xR shifts its bit and seals the register, which
becomes pending and is emitted. -/
def Obligations.ExitSealsRegister : Prop :=
  ∀ (s : State) (k : SeqIndex) (o i bo bi : Bit) (r : ShiftRegister) (sh ex : TapState), s.sim.fault = none →
    ((sh, ex) = (.shDR, .ex1DR) ∨ (sh, ex) = (.shIR, .ex1IR)) → s.sim.tap = sh → s.sim.openReg = some r →
    s.sim.ones < 4 →
    (s.cfg.samplePhase = .onEdge ∧ (bo, bi) = (o, i) ∨ s.cfg.samplePhase = .beforeEdge ∧ s.sim.prev = some (bo, bi)) →
    let q : ShiftRegister := { r with
      bitsOut := r.bitsOut ++ [bo], bitsIn := r.bitsIn ++ [bi], length := r.length + 1 }
    exec (.rise (bitOperands k o i 1)) s =
      .next { s with
        sim := { s.sim with
          tap := ex, openReg := none, pending := some q, ones := s.sim.ones + 1, prev := some (o, i) }
        log := s.log ++ [.transition k sh ex, .sealed k q] }

/-- R134: Capture-xR to Exit1-xR seals a register of length 0. -/
def Obligations.CaptureToExitSealsEmpty : Prop :=
  ∀ (s : State) (k : SeqIndex) (o i : Bit) (cap ex : TapState) (kind : Kind), s.sim.Inv → s.sim.fault = none →
    ((cap, ex, kind) = (.capDR, .ex1DR, .dr) ∨ (cap, ex, kind) = (.capIR, .ex1IR, .ir)) → s.sim.tap = cap →
    let q : ShiftRegister := { kind := kind, bitsOut := [], bitsIn := [], length := 0 }
    exec (.rise (bitOperands k o i 1)) s =
      .next { s with
        sim := { s.sim with
          tap := ex, openReg := none, pending := some q, ones := s.sim.ones + 1, prev := some (o, i) }
        log := s.log ++ [.transition k cap ex, .sealed k q] }

/-- R135: resuming Shift-xR from Exit2-xR drops the pending segment and opens a new empty register; nothing is shifted
and no register is emitted. -/
def Obligations.ResumeOpensNewSegment : Prop :=
  ∀ (s : State) (k : SeqIndex) (o i : Bit) (ex sh : TapState) (kind : Kind), s.sim.fault = none →
    ((ex, sh, kind) = (.ex2DR, .shDR, .dr) ∨ (ex, sh, kind) = (.ex2IR, .shIR, .ir)) → s.sim.tap = ex →
    exec (.rise (bitOperands k o i 0)) s =
      .next { s with
        sim := { s.sim with
          tap := sh, pending := none, openReg := some { kind := kind, bitsOut := [], bitsIn := [], length := 0 },
          ones := 0, prev := some (o, i) }
        log := s.log ++ [.transition k ex sh] }

/-- R136: entering Update-xR latches the pending register, which has the kind of the state, and emits it. -/
def Obligations.UpdateLatchesPending : Prop :=
  ∀ (s : State) (k : SeqIndex) (o i : Bit), s.sim.Inv → s.sim.fault = none →
    (s.sim.tap = .ex1DR ∨ s.sim.tap = .ex2DR →
      ∃ r, s.sim.pending = some r ∧ r.kind = .dr ∧
        exec (.rise (bitOperands k o i 1)) s =
          .next { s with
            sim := { s.sim with
              tap := .updDR, pending := none, latchedDr := some r, ones := s.sim.ones + 1, prev := some (o, i) }
            log := s.log ++ [.transition k s.sim.tap .updDR, .latched k .dr r] }) ∧
    (s.sim.tap = .ex1IR ∨ s.sim.tap = .ex2IR →
      ∃ r, s.sim.pending = some r ∧ r.kind = .ir ∧
        exec (.rise (bitOperands k o i 1)) s =
          .next { s with
            sim := { s.sim with
              tap := .updIR, pending := none, latchedIr := some r, ones := s.sim.ones + 1, prev := some (o, i) }
            log := s.log ++ [.transition k s.sim.tap .updIR, .latched k .ir r] })

/-- R111, R137: entering Test-Logic-Reset, by the graph or by the forced reset at the fifth consecutive one from
whatever TAP state, clears the open and pending registers and both latches, with no event beside the Transition. -/
def Obligations.TestLogicResetClearsRegisters : Prop :=
  ∀ (s : State) (k : SeqIndex) (o i : Bit), s.sim.fault = none →
    (s.sim.tap = .tlr ∨ s.sim.tap = .selIR ∨ (4 ≤ s.sim.ones ∧ ShiftReady s)) →
    exec (.rise (bitOperands k o i 1)) s =
      .next { s with
        sim := { tap := .tlr, openReg := none, pending := none, latchedIr := none, latchedDr := none,
                 ones := min (s.sim.ones + 1) 5, prev := some (o, i), fault := none }
        log := s.log ++ [.transition k s.sim.tap .tlr] }

/-! ### What no command does -/

/-- The writer table of R31 (the spec's own inference): a command that is not RISE leaves every register, the counter
and the TAP alone; the latches change only on entry to Update-xR of their kind or to Test-Logic-Reset; a command that
raises an error writes nothing but `fault`. -/
def Obligations.WriterTableHolds : Prop :=
  ∀ (i : Instr) (s t : State), exec i s = .next t →
    ((∀ c, i ≠ .rise c) → ∃ p f, t.sim = { s.sim with prev := p, fault := f }) ∧
    (t.sim.latchedIr ≠ s.sim.latchedIr → t.sim.tap = .updIR ∨ t.sim.tap = .tlr) ∧
    (t.sim.latchedDr ≠ s.sim.latchedDr → t.sim.tap = .updDR ∨ t.sim.tap = .tlr) ∧
    (t.sim.fault ≠ s.sim.fault → ∃ f,
      t = { s with sim := { s.sim with fault := some ⟨i.operands.sequenceIndex, .malformedCommandError, f⟩ } })

/-- No command touches the configuration, the stream or the position (70_reset_and_hazards.md R203; 20_memory.md R51). -/
def Obligations.CommandsLeaveInputAlone : Prop :=
  ∀ (i : Instr) (s t : State), exec i s = .next t → t.cfg = s.cfg ∧ t.stream = s.stream ∧ t.position = s.position

/-- The log only grows, by events in order: nothing for a command that is not RISE or that ends in a fault; for a RISE
one Transition from the old to the new state, which comes first (R166), then at most one Sealed or Latched: that clause
is the Events line of R165 with R144, which the spec marks as its own inference from R143. So an emitted register is
never changed. -/
def Obligations.StepEmitsTransitionFirst : Prop :=
  ∀ (i : Instr) (s t : State), exec i s = .next t →
    (((∀ c, i ≠ .rise c) ∨ t.sim.fault ≠ none) → t.log = s.log) ∧
    (∀ c, i = .rise c → t.sim.fault = none →
      t.log = s.log ++ [.transition c.sequenceIndex s.sim.tap t.sim.tap] ∨
      (∃ r, t.sim.pending = some r ∧
        t.log = s.log ++ [.transition c.sequenceIndex s.sim.tap t.sim.tap, .sealed c.sequenceIndex r]) ∨
      (∃ kind r, s.sim.pending = some r ∧ kindOf t.sim.tap = some kind ∧
        t.log = s.log ++ [.transition c.sequenceIndex s.sim.tap t.sim.tap, .latched c.sequenceIndex kind r]))

/-- The same NONE or FALL twice leaves the block's record as once does (the spec's own inference, 20_memory.md R47). -/
def Obligations.PassiveCommandsAreIdempotent : Prop :=
  ∀ (i : Instr) (s t u : State), ((∃ c, i = .noEdge c) ∨ ∃ c, i = .fall c) →
    exec i s = .next t → exec i t = .next u → u.sim = t.sim

/-! ### The step and the invariant -/

/-- A step runs the command of the next stream entry, with the entry taken from the stream and the position moved past
it (R48, R167). At the end of the stream there is no step: the model's choice, log entry 4. -/
def Obligations.StepRunsNextCommand : Prop :=
  (∀ (s : State) (c : PortInput) (rest : List PortInput), s.stream = c :: rest →
    step s = exec (decodeInput s.position c) { s with stream := rest, position := s.position + 1 }) ∧
  (∀ s : State, s.stream = [] → step s = .fault .endOfStream)

/-- The invariant (R22, R23, R24, R26 and 95_test_vectors.md section 4) holds at reset, in either phase. -/
def Obligations.ResetMeetsInvariant : Prop :=
  State.reset.Inv ∧ ∀ p, (State.resetWith p).Inv

/-- Every step keeps the invariant, from every state that meets it. -/
def Obligations.StepKeepsInvariant : Prop :=
  ∀ (s t : State), s.Inv → step s = .next t → t.Inv

/-- From every state that meets the invariant, every command of the stream can be applied: a step stops only at the end
of the stream (60_exceptions.md R188, every command is allowed in every state). -/
def Obligations.StepNeverSticks : Prop :=
  ∀ s : State, s.sim.Inv → s.stream ≠ [] → ∃ t, step s = .next t

/-! ### Sequences and runs -/

/-- The reset invariant (R113, an inference of the spec whose content the source states): from any state, five Rising
commands with mode_select = 1 and no other Rising command, interleaved with any number of others, leave
Test-Logic-Reset; one more with mode_select = 0 then gives Run-Test/Idle. -/
def Obligations.FiveOnesReachTestLogicReset : Prop :=
  ∀ (s : State) (l l' : List Instr), s.sim.Inv → s.sim.fault = none →
    (∀ i ∈ l ++ l', i.protocolValid = true) → risingModes l = [1, 1, 1, 1, 1] → risingModes l' = [0] →
    ∃ t u, execAll l s = .next t ∧ t.sim.tap = .tlr ∧ execAll l' t = .next u ∧ u.sim.tap = .rti

/-- The IR scan property (R146, an inference of the spec whose content the source states): the Rising edges
Select-IR-Scan, Capture-IR, Shift-IR × N, Exit1-IR, Update-IR, interleaved with any other commands, seal exactly one
register: kind IR, length N, holding the N sampled bits in order; and Update-IR latches it. -/
def Obligations.IrScanSealsOneRegister : Prop :=
  ∀ (s : State) (l : List Instr) (n : Nat), s.sim.Inv → s.sim.fault = none → s.sim.tap = .selIR →
    (∀ i ∈ l, i.protocolValid = true) →
    risingModes l = [0, 0] ++ List.replicate n 0 ++ [1] ++ [1] →
    ∃ (t : State) (r : ShiftRegister) (evs : List Event), execAll l s = .next t ∧ t.sim.tap = .updIR ∧
      t.log = s.log ++ evs ∧ sealedOf evs = [r] ∧ t.sim.latchedIr = some r ∧
      r.kind = .ir ∧ r.length = n + 1 ∧
      (r.bitsOut.zip r.bitsIn).map some =
        ((sampledBits s.cfg.samplePhase s.sim.prev l).drop 2).take (n + 1) ∧
      r.bitsOut.length = n + 1 ∧ r.bitsIn.length = n + 1

/-- Synchronisation (R204, the spec's own inference): once five ones have been counted, any TAP that follows the graph
and saw the same Rising edges, from whatever state, is in the simulated state, and stays there with it. -/
def Obligations.FiveOnesSynchronise : Prop :=
  ∀ (s t u : State) (l l' : List Instr) (target : TapState), s.sim.Inv → s.sim.fault = none → s.sim.ones = 0 →
    (∀ i ∈ l ++ l', i.protocolValid = true) → execAll l s = .next t → t.sim.ones = 5 → execAll l' t = .next u →
    tapWalk target (risingModes l) = t.sim.tap ∧ tapWalk target (risingModes (l ++ l')) = u.sim.tap

/-- Artifact fidelity (R172, the spec's own inference): with the None entries dropped, the TAP and the Transition events
are the same; under OnEdge so are all events and all of the block's record but `prev`. -/
def Obligations.DroppingNoneKeepsTrajectory : Prop :=
  ∀ (s : State) (l : List Instr), s.sim.Inv → s.sim.fault = none → (∀ i ∈ l, i.protocolValid = true) →
    ∃ t u, execAll l s = .next t ∧ execAll (l.filter Instr.notNone) s = .next u ∧
      u.sim.tap = t.sim.tap ∧ transitionsOf u.log = transitionsOf t.log ∧
      (s.cfg.samplePhase = .onEdge → u.log = t.log ∧ { u.sim with prev := t.sim.prev } = t.sim)

/-- The two phases give the same registers where the data do not change between the command before a Rising edge and
the edge (R205). -/
def Obligations.SteadyDataHidesPhase : Prop :=
  ∀ (s t : State) (l : List Instr), dataSteady s.sim.prev l →
    s.cfg.samplePhase = .onEdge → execAll l s = .next t →
    execAll l { s with cfg := { samplePhase := .beforeEdge } } = .next { t with cfg := { samplePhase := .beforeEdge } }

/-- A trace made of pulses gives the same run in both phases (R74, R205). -/
def Obligations.PulseTracesHidePhase : Prop :=
  ∀ pulses : List (Bit × Bit × Bit),
    runTrace .onEdge [(pulses.map fun p => pinBytes (.pulse p.1 p.2.1 p.2.2)).flatten] =
      runTrace .beforeEdge [(pulses.map fun p => pinBytes (.pulse p.1 p.2.1 p.2.2)).flatten]

/-- Batching transparency (R53, the spec's own inference): a stream split at any command boundary, the whole state
carried, ends as the stream in one batch does. -/
def Obligations.BatchesComposeToOneRun : Prop :=
  ∀ (s t : State) (xs ys : List PortInput),
    Host.Core.run Sys2Proof.core xs.length (s.load xs) = .next t →
    Host.Core.run Sys2Proof.core (xs.length + ys.length) (s.load (xs ++ ys)) =
      Host.Core.run Sys2Proof.core ys.length (t.load ys)

/-- Well-formed streams never fault (R171, the spec's own inference): a run of commands that are all protocol-valid
completes, in either phase, and returns what the commands, each at its position, applied one after another from the
reset state leave: the final state and all events in stream order (R167). -/
def Obligations.WellFormedRunCompletes : Prop :=
  ∀ (phase : SamplePhase) (cs : List PortInput),
    (∀ k c, cs[k]? = some c → (decodeInput k c).protocolValid = true) →
    ∃ t, execAll (cs.mapIdx decodeInput) (State.resetWith phase) = .next t ∧
      run phase cs = .completed t.sim t.log ∧ t.sim.fault = none

/-- The first faulting command of a stream ends the run with its record, whatever follows it, and no state or events
(R167, R185). The record has the command's index and names the first check that fails (R162); the four clauses are all
the ways a command can be malformed. -/
def Obligations.FirstBadCommandEndsRun : Prop :=
  ∀ (phase : SamplePhase) (good rest : List PortInput) (bad : PortInput),
    (∀ k c, good[k]? = some c → (decodeInput k c).protocolValid = true) →
    let i := decodeInput good.length bad
    let c := i.operands
    let endsWith := fun f : FieldName =>
      run phase (good ++ bad :: rest) = .fatal ⟨c.sequenceIndex, .malformedCommandError, f⟩
    (i = .reserved c → endsWith .edge) ∧
    (i ≠ .reserved c →
      (1 < c.modeSelect → endsWith .modeSelect) ∧
      (c.modeSelect ≤ 1 → 1 < c.dataOut → endsWith .dataOut) ∧
      (c.modeSelect ≤ 1 → c.dataOut ≤ 1 → 1 < c.dataIn → endsWith .dataIn))

/-- The run of any captured trace completes, the front end giving legal pin values only (R64, R171), and returns what
its commands applied one after another from the reset state leave (R167). -/
def Obligations.TraceRunCompletes : Prop :=
  ∀ (phase : SamplePhase) (payloads : List (List Byte)),
    ∃ t, execAll ((frontEnd payloads).map decodeRecord) (State.resetWith phase) = .next t ∧
      runTrace phase payloads = .completed t.sim t.log ∧ t.sim.fault = none
end

