-- ==== Sys2Proof/Laws/State.lean ====
section
/-! SUPPORT. One lemma per field per update of the state, true by definition, so that no later proof unfolds a record
update. -/

namespace Sys2Proof.Machine

@[simp] theorem SimState.setTap_tap (st : SimState) (v : TapState) : (st.setTap v).tap = v := rfl
@[simp] theorem SimState.setTap_openReg (st : SimState) (v : TapState) : (st.setTap v).openReg = st.openReg := rfl
@[simp] theorem SimState.setTap_pending (st : SimState) (v : TapState) : (st.setTap v).pending = st.pending := rfl
@[simp] theorem SimState.setTap_latchedIr (st : SimState) (v : TapState) : (st.setTap v).latchedIr = st.latchedIr := rfl
@[simp] theorem SimState.setTap_latchedDr (st : SimState) (v : TapState) : (st.setTap v).latchedDr = st.latchedDr := rfl
@[simp] theorem SimState.setTap_ones (st : SimState) (v : TapState) : (st.setTap v).ones = st.ones := rfl
@[simp] theorem SimState.setTap_prev (st : SimState) (v : TapState) : (st.setTap v).prev = st.prev := rfl
@[simp] theorem SimState.setTap_fault (st : SimState) (v : TapState) : (st.setTap v).fault = st.fault := rfl

@[simp] theorem SimState.setOpen_tap (st : SimState) (v : Option ShiftRegister) : (st.setOpen v).tap = st.tap := rfl
@[simp] theorem SimState.setOpen_openReg (st : SimState) (v : Option ShiftRegister) : (st.setOpen v).openReg = v := rfl
@[simp] theorem SimState.setOpen_pending (st : SimState) (v : Option ShiftRegister) : (st.setOpen v).pending = st.pending := rfl
@[simp] theorem SimState.setOpen_latchedIr (st : SimState) (v : Option ShiftRegister) : (st.setOpen v).latchedIr = st.latchedIr := rfl
@[simp] theorem SimState.setOpen_latchedDr (st : SimState) (v : Option ShiftRegister) : (st.setOpen v).latchedDr = st.latchedDr := rfl
@[simp] theorem SimState.setOpen_ones (st : SimState) (v : Option ShiftRegister) : (st.setOpen v).ones = st.ones := rfl
@[simp] theorem SimState.setOpen_prev (st : SimState) (v : Option ShiftRegister) : (st.setOpen v).prev = st.prev := rfl
@[simp] theorem SimState.setOpen_fault (st : SimState) (v : Option ShiftRegister) : (st.setOpen v).fault = st.fault := rfl

@[simp] theorem SimState.setPending_tap (st : SimState) (v : Option ShiftRegister) : (st.setPending v).tap = st.tap := rfl
@[simp] theorem SimState.setPending_openReg (st : SimState) (v : Option ShiftRegister) : (st.setPending v).openReg = st.openReg := rfl
@[simp] theorem SimState.setPending_pending (st : SimState) (v : Option ShiftRegister) : (st.setPending v).pending = v := rfl
@[simp] theorem SimState.setPending_latchedIr (st : SimState) (v : Option ShiftRegister) : (st.setPending v).latchedIr = st.latchedIr := rfl
@[simp] theorem SimState.setPending_latchedDr (st : SimState) (v : Option ShiftRegister) : (st.setPending v).latchedDr = st.latchedDr := rfl
@[simp] theorem SimState.setPending_ones (st : SimState) (v : Option ShiftRegister) : (st.setPending v).ones = st.ones := rfl
@[simp] theorem SimState.setPending_prev (st : SimState) (v : Option ShiftRegister) : (st.setPending v).prev = st.prev := rfl
@[simp] theorem SimState.setPending_fault (st : SimState) (v : Option ShiftRegister) : (st.setPending v).fault = st.fault := rfl

@[simp] theorem SimState.setOnes_tap (st : SimState) (v : Nat) : (st.setOnes v).tap = st.tap := rfl
@[simp] theorem SimState.setOnes_openReg (st : SimState) (v : Nat) : (st.setOnes v).openReg = st.openReg := rfl
@[simp] theorem SimState.setOnes_pending (st : SimState) (v : Nat) : (st.setOnes v).pending = st.pending := rfl
@[simp] theorem SimState.setOnes_latchedIr (st : SimState) (v : Nat) : (st.setOnes v).latchedIr = st.latchedIr := rfl
@[simp] theorem SimState.setOnes_latchedDr (st : SimState) (v : Nat) : (st.setOnes v).latchedDr = st.latchedDr := rfl
@[simp] theorem SimState.setOnes_ones (st : SimState) (v : Nat) : (st.setOnes v).ones = v := rfl
@[simp] theorem SimState.setOnes_prev (st : SimState) (v : Nat) : (st.setOnes v).prev = st.prev := rfl
@[simp] theorem SimState.setOnes_fault (st : SimState) (v : Nat) : (st.setOnes v).fault = st.fault := rfl

@[simp] theorem SimState.setPrev_tap (st : SimState) (v : Option (Bit × Bit)) : (st.setPrev v).tap = st.tap := rfl
@[simp] theorem SimState.setPrev_openReg (st : SimState) (v : Option (Bit × Bit)) : (st.setPrev v).openReg = st.openReg := rfl
@[simp] theorem SimState.setPrev_pending (st : SimState) (v : Option (Bit × Bit)) : (st.setPrev v).pending = st.pending := rfl
@[simp] theorem SimState.setPrev_latchedIr (st : SimState) (v : Option (Bit × Bit)) : (st.setPrev v).latchedIr = st.latchedIr := rfl
@[simp] theorem SimState.setPrev_latchedDr (st : SimState) (v : Option (Bit × Bit)) : (st.setPrev v).latchedDr = st.latchedDr := rfl
@[simp] theorem SimState.setPrev_ones (st : SimState) (v : Option (Bit × Bit)) : (st.setPrev v).ones = st.ones := rfl
@[simp] theorem SimState.setPrev_prev (st : SimState) (v : Option (Bit × Bit)) : (st.setPrev v).prev = v := rfl
@[simp] theorem SimState.setPrev_fault (st : SimState) (v : Option (Bit × Bit)) : (st.setPrev v).fault = st.fault := rfl

@[simp] theorem SimState.setFault_tap (st : SimState) (v : Option FatalRecord) : (st.setFault v).tap = st.tap := rfl
@[simp] theorem SimState.setFault_openReg (st : SimState) (v : Option FatalRecord) : (st.setFault v).openReg = st.openReg := rfl
@[simp] theorem SimState.setFault_pending (st : SimState) (v : Option FatalRecord) : (st.setFault v).pending = st.pending := rfl
@[simp] theorem SimState.setFault_latchedIr (st : SimState) (v : Option FatalRecord) : (st.setFault v).latchedIr = st.latchedIr := rfl
@[simp] theorem SimState.setFault_latchedDr (st : SimState) (v : Option FatalRecord) : (st.setFault v).latchedDr = st.latchedDr := rfl
@[simp] theorem SimState.setFault_ones (st : SimState) (v : Option FatalRecord) : (st.setFault v).ones = st.ones := rfl
@[simp] theorem SimState.setFault_prev (st : SimState) (v : Option FatalRecord) : (st.setFault v).prev = st.prev := rfl
@[simp] theorem SimState.setFault_fault (st : SimState) (v : Option FatalRecord) : (st.setFault v).fault = v := rfl

@[simp] theorem SimState.setLatched_ir_latchedIr (st : SimState) (v : Option ShiftRegister) :
    (st.setLatched .ir v).latchedIr = v := rfl
@[simp] theorem SimState.setLatched_ir_latchedDr (st : SimState) (v : Option ShiftRegister) :
    (st.setLatched .ir v).latchedDr = st.latchedDr := rfl
@[simp] theorem SimState.setLatched_dr_latchedDr (st : SimState) (v : Option ShiftRegister) :
    (st.setLatched .dr v).latchedDr = v := rfl
@[simp] theorem SimState.setLatched_dr_latchedIr (st : SimState) (v : Option ShiftRegister) :
    (st.setLatched .dr v).latchedIr = st.latchedIr := rfl
@[simp] theorem SimState.setLatched_tap (st : SimState) (k : Kind) (v : Option ShiftRegister) :
    (st.setLatched k v).tap = st.tap := by cases k <;> rfl
@[simp] theorem SimState.setLatched_openReg (st : SimState) (k : Kind) (v : Option ShiftRegister) :
    (st.setLatched k v).openReg = st.openReg := by cases k <;> rfl
@[simp] theorem SimState.setLatched_pending (st : SimState) (k : Kind) (v : Option ShiftRegister) :
    (st.setLatched k v).pending = st.pending := by cases k <;> rfl
@[simp] theorem SimState.setLatched_ones (st : SimState) (k : Kind) (v : Option ShiftRegister) :
    (st.setLatched k v).ones = st.ones := by cases k <;> rfl
@[simp] theorem SimState.setLatched_prev (st : SimState) (k : Kind) (v : Option ShiftRegister) :
    (st.setLatched k v).prev = st.prev := by cases k <;> rfl
@[simp] theorem SimState.setLatched_fault (st : SimState) (k : Kind) (v : Option ShiftRegister) :
    (st.setLatched k v).fault = st.fault := by cases k <;> rfl

@[simp] theorem State.setSim_cfg (s : State) (v : SimState) : (s.setSim v).cfg = s.cfg := rfl
@[simp] theorem State.setSim_sim (s : State) (v : SimState) : (s.setSim v).sim = v := rfl
@[simp] theorem State.setSim_stream (s : State) (v : SimState) : (s.setSim v).stream = s.stream := rfl
@[simp] theorem State.setSim_position (s : State) (v : SimState) : (s.setSim v).position = s.position := rfl
@[simp] theorem State.setSim_log (s : State) (v : SimState) : (s.setSim v).log = s.log := rfl

@[simp] theorem State.emit_cfg (s : State) (v : List Event) : (s.emit v).cfg = s.cfg := rfl
@[simp] theorem State.emit_sim (s : State) (v : List Event) : (s.emit v).sim = s.sim := rfl
@[simp] theorem State.emit_stream (s : State) (v : List Event) : (s.emit v).stream = s.stream := rfl
@[simp] theorem State.emit_position (s : State) (v : List Event) : (s.emit v).position = s.position := rfl
@[simp] theorem State.emit_log (s : State) (v : List Event) : (s.emit v).log = s.log ++ v := rfl

@[simp] theorem State.load_cfg (s : State) (v : List PortInput) : (s.load v).cfg = s.cfg := rfl
@[simp] theorem State.load_sim (s : State) (v : List PortInput) : (s.load v).sim = s.sim := rfl
@[simp] theorem State.load_stream (s : State) (v : List PortInput) : (s.load v).stream = v := rfl
@[simp] theorem State.load_position (s : State) (v : List PortInput) : (s.load v).position = s.position := rfl
@[simp] theorem State.load_log (s : State) (v : List PortInput) : (s.load v).log = s.log := rfl

@[simp] theorem raiseFatal_cfg (s : State) (k : SeqIndex) (e : FieldName) : (raiseFatal s k e).cfg = s.cfg := rfl
@[simp] theorem raiseFatal_stream (s : State) (k : SeqIndex) (e : FieldName) : (raiseFatal s k e).stream = s.stream := rfl
@[simp] theorem raiseFatal_position (s : State) (k : SeqIndex) (e : FieldName) : (raiseFatal s k e).position = s.position := rfl
@[simp] theorem raiseFatal_log (s : State) (k : SeqIndex) (e : FieldName) : (raiseFatal s k e).log = s.log := rfl
@[simp] theorem raiseFatal_sim (s : State) (k : SeqIndex) (e : FieldName) :
    (raiseFatal s k e).sim = s.sim.setFault (some ⟨k, .malformedCommandError, e⟩) := rfl

end Sys2Proof.Machine
end

