-- ==== Sys2Proof/Laws/Ops.lean ====
section
/-! SUPPORT. One lemma per shared operation that says everything it can do. -/

namespace Sys2Proof.Machine

/-! ### Operands -/

@[simp] theorem pinBit_val (b : Bit) : pinBit b.val = some b := by
  have := b.isLt
  simp [pinBit]; omega

theorem pinBit_eq_none_iff (n : Nat) : pinBit n = none ↔ 1 < n := by
  unfold pinBit; split <;> simp <;> omega

theorem pinBit_eq_some_iff (n : Nat) (b : Bit) : pinBit n = some b ↔ n = b.val := by
  unfold pinBit; split
  · simp [Fin.ext_iff]
  · simp; omega

/-- Pin fields that hold bits pass validation. -/
@[simp] theorem validate_bits (k : SeqIndex) (o i m : Bit) :
    validate ⟨k, o.val, i.val, m.val⟩ = .ok ⟨o, i, m⟩ := by
  simp [validate]

/-- Validation answers pins exactly when every field holds the bit it names. -/
theorem validate_ok_iff (c : Operands) (p : Pins) :
    validate c = .ok p ↔
      c.modeSelect = p.modeSelect.val ∧ c.dataOut = p.dataOut.val ∧ c.dataIn = p.dataIn.val := by
  rw [← pinBit_eq_some_iff, ← pinBit_eq_some_iff, ← pinBit_eq_some_iff]
  unfold validate
  obtain ⟨o, i, m⟩ := p
  split <;> simp_all [and_comm, and_left_comm]

/-- Validation fails exactly when a field holds no bit, and names the first such field. -/
theorem validate_error_cases {c : Operands} {f : FieldName} (h : validate c = .error f) :
    (1 < c.modeSelect ∧ f = .modeSelect) ∨
    (c.modeSelect ≤ 1 ∧ 1 < c.dataOut ∧ f = .dataOut) ∨
    (c.modeSelect ≤ 1 ∧ c.dataOut ≤ 1 ∧ 1 < c.dataIn ∧ f = .dataIn) := by
  unfold validate at h
  split at h
  · next h1 => simp_all [pinBit_eq_none_iff]
  · next h1 h2 => simp_all [pinBit_eq_none_iff, pinBit_eq_some_iff]; omega
  · next h1 h2 h3 => simp_all [pinBit_eq_none_iff, pinBit_eq_some_iff]; omega
  · simp at h

/-! ### The end of a step -/

/-- A step that answers a next state took the body's result whole, or a fatal error. -/
theorem conclude_cases {s t : State} {k : SeqIndex} {r : Except Abort (SimState × List Event)}
    (h : conclude s k r = .next t) :
    (∃ st evs, r = .ok (st, evs) ∧ t = (s.setSim st).emit evs) ∨
    (∃ f, r = .error (.fatal f) ∧ t = raiseFatal s k f) := by
  unfold conclude at h
  split at h
  · exact .inl ⟨_, _, rfl, by simpa using h.symm⟩
  · exact .inr ⟨_, rfl, by simpa using h.symm⟩
  · cases h

/-- What a command that answers a next state did: nothing, after a fatal error; a fatal error from validation; or its
body, on validated pins. -/
theorem applyCommand_cases {c : Operands} {s t : State} {body : Pins → Except Abort (SimState × List Event)}
    (h : applyCommand c s body = .next t) :
    (s.sim.fault.isSome = true ∧ t = s) ∨
    (s.sim.fault = none ∧ ∃ f, validate c = .error f ∧ t = raiseFatal s c.sequenceIndex f) ∨
    (s.sim.fault = none ∧ ∃ p, validate c = .ok p ∧ conclude s c.sequenceIndex (body p) = .next t) := by
  unfold applyCommand isFaulted at h
  split at h
  · next hf => exact .inl ⟨hf, by simpa using h.symm⟩
  · next hf =>
    have hn : s.sim.fault = none := by simpa using hf
    split at h
    · next f hv => exact .inr (.inl ⟨hn, f, hv, by simpa [conclude] using h.symm⟩)
    · next p hv => exact .inr (.inr ⟨hn, p, hv, h⟩)

/-- After a fatal error a command does nothing. -/
theorem applyCommand_of_fault {c : Operands} {s : State} {body : Pins → Except Abort (SimState × List Event)}
    (h : s.sim.fault.isSome = true) : applyCommand c s body = .next s := by
  simp [applyCommand, isFaulted, h]

/-- With no fatal error and bits in the pin fields, a command is its body. -/
theorem applyCommand_of_bits {k : SeqIndex} {o i m : Bit} {s : State}
    {body : Pins → Except Abort (SimState × List Event)} (h : s.sim.fault = none) :
    applyCommand ⟨k, o.val, i.val, m.val⟩ s body = conclude s k (body ⟨o, i, m⟩) := by
  simp [applyCommand, isFaulted, h]

/-! ### Shift registers -/

/-- A shift that finishes left the state alone, outside Shift-xR, or appended the sampled bits. -/
theorem shiftIn_cases {phase : SamplePhase} {pins : Pins} {st st' : SimState}
    (h : shiftIn phase pins st = .ok st') :
    (isShift st.tap = false ∧ st' = st) ∨
    (isShift st.tap = true ∧ ∃ b r, shiftBits phase st.prev pins = .ok b ∧ st.openReg = some r ∧
      st' = st.setOpen (some (appendBits r b))) := by
  unfold shiftIn at h
  split at h
  · next hs =>
    split at h
    · cases h
    · next b hb =>
      split at h
      · cases h
      · next r hr => exact .inr ⟨hs, b, r, hb, hr, by simpa using h.symm⟩
  · next hs => exact .inl ⟨by simpa using hs, by simpa using h.symm⟩

/-- The effects of entering a state: at most one of the six acts (41_shift_registers.md R143). -/
theorem enter_cases {k : SeqIndex} {s0 s1 : TapState} {st st' : SimState} {evs : List Event}
    (h : enter k s0 s1 st = .ok (st', evs)) :
    (s1 = .tlr ∧ st' = clearRegisters st ∧ evs = []) ∨
    (s1 ≠ .tlr ∧ isCapture s1 = true ∧ ∃ kind, kindOf s1 = some kind ∧ st' = openRegister kind st ∧ evs = []) ∨
    (isExit1 s1 = true ∧ (isShift s0 || isCapture s0) = true ∧ ∃ r, st.openReg = some r ∧
      st' = (st.setPending (some r)).setOpen none ∧ evs = [.sealed k r]) ∨
    (isExit2 s0 = true ∧ isShift s1 = true ∧ ∃ kind, kindOf s1 = some kind ∧ st' = resumeShift kind st ∧ evs = []) ∨
    (isUpdate s1 = true ∧ ∃ kind r, kindOf s1 = some kind ∧ st.pending = some r ∧
      st' = (st.setLatched kind (some r)).setPending none ∧ evs = [.latched k kind r]) ∨
    (s1 ≠ .tlr ∧ isCapture s1 = false ∧ ((isShift s0 || isCapture s0) && isExit1 s1) = false ∧
      (isExit2 s0 && isShift s1) = false ∧ isUpdate s1 = false ∧ st' = st ∧ evs = []) := by
  unfold enter at h
  cases hk : kindOf s1 with
  | none =>
    rw [hk] at h
    cases s1 <;> simp_all [kindOf, isCapture, isExit1, isShift, isUpdate]
  | some kind =>
    have ht : s1 ≠ .tlr := by rintro rfl; cases hk
    rw [hk] at h
    simp only at h
    split at h
    · next hc => exact .inr (.inl ⟨ht, hc, kind, rfl, by simpa [and_comm, eq_comm] using h⟩)
    · next hc =>
      split at h
      · next hx =>
        unfold sealOpen at h
        split at h
        · cases h
        · next r hr =>
          simp only [Bool.and_eq_true] at hx
          exact .inr (.inr (.inl ⟨hx.2, hx.1, r, hr, by simpa [and_comm, eq_comm] using h⟩))
      · next hx =>
        split at h
        · next hx2 =>
          simp only [Bool.and_eq_true] at hx2
          exact .inr (.inr (.inr (.inl ⟨hx2.1, hx2.2, kind, rfl, by simpa [and_comm, eq_comm] using h⟩)))
        · next hx2 =>
          split at h
          · next hu =>
            unfold latch at h
            split at h
            · cases h
            · next r hr =>
              exact .inr (.inr (.inr (.inr (.inl ⟨hu, kind, r, rfl, hr, by simpa [and_comm, eq_comm] using h⟩))))
          · next hu =>
            exact .inr (.inr (.inr (.inr (.inr ⟨ht, by simpa using hc, by simpa using hx, by simpa using hx2,
              by simpa using hu, by simpa [and_comm, eq_comm] using h⟩))))

/-- What a RISE body that finishes did: the shift, then the effects of entering the new state, then `tap` and `prev`. -/
theorem riseBody_cases {phase : SamplePhase} {k : SeqIndex} {p : Pins} {st st' : SimState} {evs : List Event}
    (h : riseBody phase k p st = .ok (st', evs)) :
    ∃ shifted entered evs',
      shiftIn phase p st = .ok shifted ∧
      enter k st.tap (forceReset (countOnes st.ones p.modeSelect) (nextTap st.tap p.modeSelect))
        (shifted.setOnes (countOnes st.ones p.modeSelect)) = .ok (entered, evs') ∧
      st' = recordPrev p
        (entered.setTap (forceReset (countOnes st.ones p.modeSelect) (nextTap st.tap p.modeSelect))) ∧
      evs = .transition k st.tap (forceReset (countOnes st.ones p.modeSelect) (nextTap st.tap p.modeSelect)) ::
        evs' := by
  unfold riseBody at h
  split at h
  · cases h
  · next shifted hs =>
    simp only at h
    split at h
    · cases h
    · next entered evs' he =>
      refine ⟨shifted, entered, evs', hs, he, ?_⟩
      simpa [and_comm, eq_comm] using h

end Sys2Proof.Machine
end

