-- ==== Sys2Proof/Laws/Exec.lean ====
section
/-! SUPPORT. What a command, a step and one turn of a run can do, said once, and what each part leaves unchanged. -/

namespace Sys2Proof.Machine

/-- Out-of-range pin fields fail validation. -/
theorem validate_of_not_pinsOk {c : Operands} (h : c.pinsOk = false) : ∃ f, validate c = .error f := by
  cases hv : validate c with
  | error f => exact ⟨f, rfl⟩
  | ok p =>
    obtain ⟨hm, ho, hi⟩ := (validate_ok_iff c p).1 hv
    simp [Operands.pinsOk, Operands.modeSelectOk, Operands.dataOutOk, Operands.dataInOk, hm, ho, hi] at h
    have := p.dataIn.isLt
    have := p.dataOut.isLt
    have := p.modeSelect.isLt
    omega

/-- Pin fields in range pass validation. -/
theorem validate_of_pinsOk {c : Operands} (h : c.pinsOk = true) : ∃ p, validate c = .ok p := by
  cases hv : validate c with
  | ok p => exact ⟨p, rfl⟩
  | error f =>
    simp [Operands.pinsOk, Operands.modeSelectOk, Operands.dataOutOk, Operands.dataInOk] at h
    have := validate_error_cases hv
    omega

/-- A shift writes `open` only. -/
theorem shiftIn_frame {phase : SamplePhase} {p : Pins} {st st' : SimState} (h : shiftIn phase p st = .ok st') :
    st' = st.setOpen st'.openReg := by
  rcases shiftIn_cases h with ⟨_, rfl⟩ | ⟨_, b, r, _, _, rfl⟩ <;> rfl

/-- The effects of entering a state write registers only. -/
theorem enter_frame {k : SeqIndex} {s0 s1 : TapState} {st st' : SimState} {evs : List Event}
    (h : enter k s0 s1 st = .ok (st', evs)) :
    st'.tap = st.tap ∧ st'.ones = st.ones ∧ st'.prev = st.prev ∧ st'.fault = st.fault := by
  rcases enter_cases h with ⟨_, rfl, _⟩ | ⟨_, _, _, _, rfl, _⟩ | ⟨_, _, _, _, rfl, _⟩ | ⟨_, _, _, _, rfl, _⟩ |
    ⟨_, _, _, _, _, rfl, _⟩ | ⟨_, _, _, _, _, rfl, _⟩ <;> simp [clearRegisters, openRegister, resumeShift]

/-- The fields of the record that a RISE body writes outside the registers, and `fault`, which it leaves. -/
theorem riseBody_frame {phase : SamplePhase} {k : SeqIndex} {p : Pins} {st st' : SimState} {evs : List Event}
    (h : riseBody phase k p st = .ok (st', evs)) :
    st'.tap = forceReset (countOnes st.ones p.modeSelect) (nextTap st.tap p.modeSelect) ∧
      st'.ones = countOnes st.ones p.modeSelect ∧ st'.prev = some (dataBits p) ∧ st'.fault = st.fault := by
  obtain ⟨shifted, entered, evs', hs, he, rfl, rfl⟩ := riseBody_cases h
  have hen := enter_frame he
  have hsh := shiftIn_frame hs
  refine ⟨by simp [recordPrev], by simp [recordPrev, hen], by simp [recordPrev], ?_⟩
  simp only [recordPrev, SimState.setPrev_fault, SimState.setTap_fault, hen, SimState.setOnes_fault]
  rw [hsh, SimState.setOpen_fault]

/-- What a command that answers a next state did: nothing, after a fatal error; a fatal error; or its effect on
validated pins, which is to record the data bits, or the body of RISE. -/
theorem exec_cases {i : Instr} {s t : State} (h : exec i s = .next t) :
    (t = s ∧ s.sim.fault ≠ none) ∨
    (s.sim.fault = none ∧ ∃ f, t = raiseFatal s i.operands.sequenceIndex f) ∨
    (s.sim.fault = none ∧ ∃ p st evs, validate i.operands = .ok p ∧ t = (s.setSim st).emit evs ∧
      ((st = recordPrev p s.sim ∧ evs = [] ∧ ∀ c, i ≠ .rise c) ∨
        ∃ c, i = .rise c ∧ riseBody s.cfg.samplePhase c.sequenceIndex p s.sim = .ok (st, evs))) := by
  have ne : ∀ {x : Option FatalRecord}, x.isSome = true → x ≠ none := by intro x; cases x <;> simp
  cases i with
  | noEdge c =>
    rcases applyCommand_cases h with ⟨hf, ht⟩ | ⟨hf, f, _, ht⟩ | ⟨hf, p, hv, ht⟩
    · exact .inl ⟨ht, ne hf⟩
    · exact .inr (.inl ⟨hf, f, ht⟩)
    · simp only [conclude, Host.Outcome.next.injEq] at ht
      exact .inr (.inr ⟨hf, p, _, _, hv, ht.symm, .inl ⟨rfl, rfl, by simp⟩⟩)
  | fall c =>
    rcases applyCommand_cases h with ⟨hf, ht⟩ | ⟨hf, f, _, ht⟩ | ⟨hf, p, hv, ht⟩
    · exact .inl ⟨ht, ne hf⟩
    · exact .inr (.inl ⟨hf, f, ht⟩)
    · simp only [conclude, Host.Outcome.next.injEq] at ht
      exact .inr (.inr ⟨hf, p, _, _, hv, ht.symm, .inl ⟨rfl, rfl, by simp⟩⟩)
  | rise c =>
    rcases applyCommand_cases h with ⟨hf, ht⟩ | ⟨hf, f, _, ht⟩ | ⟨hf, p, hv, ht⟩
    · exact .inl ⟨ht, ne hf⟩
    · exact .inr (.inl ⟨hf, f, ht⟩)
    · rcases conclude_cases ht with ⟨st, evs, hb, ht⟩ | ⟨f, _, ht⟩
      · exact .inr (.inr ⟨hf, p, st, evs, hv, ht, .inr ⟨c, rfl, hb⟩⟩)
      · exact .inr (.inl ⟨hf, f, ht⟩)
  | reserved c =>
    simp only [exec, execReserved, isFaulted] at h
    by_cases hf : s.sim.fault.isSome = true
    · simp only [hf, if_true, Host.Outcome.next.injEq] at h
      exact .inl ⟨h.symm, ne hf⟩
    · simp only [hf, if_false, conclude, Host.Outcome.next.injEq, Bool.false_eq_true] at h
      exact .inr (.inl ⟨by simpa using hf, _, h.symm⟩)

/-- Fetching takes the head of the stream. -/
@[simp] theorem fetch_load_cons (s : State) (c : PortInput) (rest : List PortInput) :
    fetch (s.load (c :: rest)) =
      some (decodeInput s.position c, { s with stream := rest, position := s.position + 1 }) := rfl

@[simp] theorem fetch_load_nil (s : State) : fetch (s.load []) = none := rfl

/-! ### The input is carried along -/

/-- What every command shares neither reads nor writes the stream and the position. -/
theorem applyCommand_withInput {c : Operands} {s t : State} {body : Pins → Except Abort (SimState × List Event)}
    (cs : List PortInput) (p : Nat) (h : applyCommand c s body = .next t) :
    applyCommand c { s with stream := cs, position := p } body = .next { t with stream := cs, position := p } := by
  rcases applyCommand_cases h with ⟨hf, rfl⟩ | ⟨hf, f, hv, rfl⟩ | ⟨hf, pins, hv, ht⟩
  · simp [applyCommand, isFaulted, hf]
  · simp [applyCommand, isFaulted, hf, hv, conclude, raiseFatal, State.setSim]
  · simp only [applyCommand, isFaulted, hf, hv, Option.isSome_none, Bool.false_eq_true, if_false]
    rcases conclude_cases ht with ⟨st, evs, hb, rfl⟩ | ⟨f, hb, rfl⟩ <;>
      simp [hb, conclude, raiseFatal, State.setSim, State.emit]

/-- A command neither reads nor writes the stream and the position, so it does the same beside any others. -/
theorem exec_withInput {i : Instr} {s t : State} (cs : List PortInput) (p : Nat) (h : exec i s = .next t) :
    exec i { s with stream := cs, position := p } = .next { t with stream := cs, position := p } := by
  cases i with
  | noEdge c => exact applyCommand_withInput cs p h
  | rise c => exact applyCommand_withInput cs p h
  | fall c => exact applyCommand_withInput cs p h
  | reserved c =>
    simp only [exec, execReserved, conclude, raiseFatal, State.setSim] at h ⊢
    split at h <;> cases h <;> simp [*]

/-! ### One turn of a run -/

/-- A turn whose command leaves no fault goes on from the state it left. -/
theorem runLoop_of_next {n : Nat} {s t : State} (h : step s = .next t) (hf : t.sim.fault = none) :
    runLoop (n + 1) s = runLoop n t := by
  simp [runLoop, h, hf]

/-- A turn whose command leaves a fault ends the run with its record. -/
theorem runLoop_of_fatal {n : Nat} {s t : State} {record : FatalRecord} (h : step s = .next t)
    (hf : t.sim.fault = some record) : runLoop (n + 1) s = .fatal record := by
  simp [runLoop, h, hf]

/-- Commands in a row, the first of which answers a next state. -/
theorem execAll_cons_of_next {i : Instr} {rest : List Instr} {s t : State} (h : exec i s = .next t) :
    execAll (i :: rest) s = execAll rest t := by
  simp [execAll, h]

end Sys2Proof.Machine
end

