-- ==== Sys2Proof/Laws/PerInstr.lean ====
section
/-! SUPPORT. Statements about every command as syntax, one lemma per constructor. -/

namespace Sys2Proof.Laws.SelectsRow

/-- The word of a command has the command's edge code in its low two bits (30_encoding.md R66, R69). -/
def Statement (i : Instr) : Prop := ∀ w, encode i = some w → edgeField w = edgeCode i

/-- The edge field of a packed word is its edge code, whatever the pin fields. -/
theorem edgeField_packWord (c : Operands) (code : BitVec 2) : edgeField (packWord c code) = code := by
  have key : ∀ (m i o : BitVec 1) (e : BitVec 2), edgeField (m ++ i ++ o ++ e) = e := by decide
  exact key _ _ _ _

theorem of_encode {i : Instr} : Statement i := by
  intro w h
  unfold encode at h
  split at h
  · obtain rfl := Option.some.inj h
    exact edgeField_packWord _ _
  · cases h

theorem noEdge (c : Operands) : Statement (.noEdge c) := of_encode
theorem rise (c : Operands) : Statement (.rise c) := of_encode
theorem fall (c : Operands) : Statement (.fall c) := of_encode
theorem reserved (c : Operands) : Statement (.reserved c) := of_encode

end Sys2Proof.Laws.SelectsRow
end

