-- ==== Sys2Proof/Tests/Slice0.lean ====
section
/-! SUPPORT. The smoke test of WellFormed, decodings written out from the spec's encodings, one-step tests with results
from 95_test_vectors.md, and for each statement with hypotheses a concrete case that meets them. -/

namespace Sys2Proof.Tests

open Sys2Proof.Machine

/-! ### WellFormed: an ill-formed term for each check -/

theorem test_wf_refuses_modeSelect : Instr.wf (.rise ⟨0, 0, 0, 2⟩) = false := by decide
theorem test_wf_refuses_dataOut : Instr.wf (.fall ⟨0, 2, 0, 0⟩) = false := by decide
theorem test_wf_refuses_dataIn : Instr.wf (.noEdge ⟨0, 0, 2, 0⟩) = false := by decide
theorem test_wf_accepts_bits : Instr.wf (.reserved ⟨0, 1, 1, 1⟩) = true := by decide
theorem test_valid_refuses_reserved : Instr.protocolValid (.reserved ⟨0, 0, 0, 0⟩) = false := by decide

/-! ### Words written out from 30_encoding.md R66: `m i o e e` -/

/-- m=1 i=0 o=1, edge 00. -/
theorem test_decode_none : decodeWord 7 0b10100#5 = .noEdge ⟨7, 1, 0, 1⟩ := by decide
/-- m=0 i=1 o=0, edge 01. -/
theorem test_decode_rise : decodeWord 7 0b01001#5 = .rise ⟨7, 0, 1, 0⟩ := by decide
/-- m=0 i=0 o=1, edge 10. -/
theorem test_decode_fall : decodeWord 7 0b00110#5 = .fall ⟨7, 1, 0, 0⟩ := by decide
/-- m=1 i=1 o=0, edge 11. -/
theorem test_decode_reserved : decodeWord 7 0b11011#5 = .reserved ⟨7, 0, 1, 1⟩ := by decide
theorem test_decode_refuses_byte :
    (decodeBytes 0 [0x20#8]).toOption = none ∧ (decodeBytes 0 []).toOption = none := by decide
theorem test_table_refuses_wide_word : decodeTableWord 8 0x20 = none := by decide
/-- A word stored where `step` fetches runs as the instruction the decoder reads. -/
theorem test_step_runs_stored_word :
    step (State.reset.withFetchWord 8 0x11) = exec (.rise ⟨0, 0, 0, 1⟩) { State.reset with position := 1 } := rfl

/-! ### A state for every TAP state, and one step from it -/

/-- A state that meets the invariant, in a given TAP state, with empty registers. -/
def stateAt (a : TapState) : State :=
  { State.resetWith .onEdge with
    sim := { SimState.reset with
      tap := a
      openReg := if holdsOpen a then (kindOf a).map emptyRegister else none
      pending := if holdsPending a then (kindOf a).map emptyRegister else none
      prev := some (0, 0) }
    stream := [.word none 0b00001#5] }

theorem stateAt_inv (a : TapState) : (stateAt a).Inv := by
  refine ⟨?_, by simp [stateAt, State.resetWith], by simp [stateAt, State.resetWith]⟩
  constructor <;> cases a <;>
    simp [stateAt, State.resetWith, SimState.reset, holdsOpen, holdsPending, kindOf, isCapture, isShift, isExit1,
      isExit2, isPause, emptyRegister, lengthsAgree, Config.resetOnes] <;>
    exact ⟨_, rfl⟩

/-- The block's record and the events of a step that answers a next state. -/
def outcome (r : Host.Outcome State Fault Refusal) : Option (SimState × List Event) :=
  match r with
  | .next t => some (t.sim, t.log)
  | .fault _ => none
  | .refused _ => none

/-- 95_test_vectors.md section 2.4, fourth row: the exiting edge shifts, then seals. -/
theorem test_rise_shifts_and_seals :
    outcome (exec (.rise ⟨9, 1, 1, 1⟩)
      { stateAt .shDR with sim := { (stateAt .shDR).sim with openReg := some ⟨.dr, [1, 0], [0, 1], 2⟩ } }) =
    some ({ (stateAt .ex1DR).sim with
        pending := some ⟨.dr, [1, 0, 1], [0, 1, 1], 3⟩, ones := 1, prev := some (1, 1) },
      [.transition 9 .shDR .ex1DR, .sealed 9 ⟨.dr, [1, 0, 1], [0, 1, 1], 3⟩]) := by decide

/-- 95_test_vectors.md section 2.4, sampling phase: BeforeEdge appends the bits of the command before. -/
theorem test_rise_samples_before_edge :
    outcome (exec (.rise ⟨9, 1, 0, 0⟩) { stateAt .shDR with cfg := ⟨.beforeEdge⟩ }) =
    some ({ (stateAt .shDR).sim with openReg := some ⟨.dr, [0], [0], 1⟩, prev := some (1, 0) },
      [.transition 9 .shDR .shDR]) := by decide

/-- 42_commands.md R163, example. -/
theorem test_none_records_bits :
    outcome (exec (.noEdge ⟨9, 1, 0, 1⟩) (stateAt .shDR)) =
      some ({ (stateAt .shDR).sim with prev := some (1, 0) }, []) := by decide

/-- 42_commands.md R164, example. -/
theorem test_fall_records_bits :
    outcome (exec (.fall ⟨9, 0, 1, 0⟩) (stateAt .rti)) =
      some ({ (stateAt .rti).sim with prev := some (0, 1) }, []) := by decide

/-- 95_test_vectors.md section 2.5: word 0x03. -/
theorem test_reserved_faults :
    outcome (exec (decodeWord 0 0x03#5) (State.resetWith .onEdge)) =
      some ({ SimState.reset with fault := some ⟨0, .malformedCommandError, .edge⟩ }, []) := by decide

/-- 95_test_vectors.md section 2.5: mode_select is named first. -/
theorem test_bad_pins_name_modeSelect :
    outcome (exec (.rise ⟨0, 2, 2, 2⟩) (State.resetWith .onEdge)) =
      some ({ SimState.reset with fault := some ⟨0, .malformedCommandError, .modeSelect⟩ }, []) := by decide

/-! ### The front end, the values, the assembler -/

/-- 95_test_vectors.md section 1, L1-1. -/
theorem test_frontEnd_payload :
    frontEnd [[0x00, 0x01, 0x00, 0x09]] =
      [⟨0, .noEdge, 0, 0, 0⟩, ⟨1, .rising, 0, 0, 0⟩, ⟨2, .falling, 0, 0, 0⟩, ⟨3, .rising, 0, 0, 1⟩] := by decide

/-- 95_test_vectors.md section 2.1, byte 0xA5. -/
theorem test_pinSample_A5 : pinSample 0xA5 = ⟨1, 0, 1, 0⟩ := by decide

/-- 95_test_vectors.md section 2.4, values. -/
theorem test_val_255 : bitSeqVal [1, 1, 1, 1, 1, 1, 1, 1] = 255 := by decide

/-- 30_encoding.md R73, example `R 1 0 0`, with a label, an index and a comment: word 0x11. -/
theorem test_parse_statement :
    (parseStmt ['a', ':', ' ', 'R', ' ', '1', ' ', '0', ' ', '0', ' ', '@', '1', '7', ';', 'x']).map assemble =
      some (.word (some 17) 0x11#5) := by decide

/-- 30_encoding.md R73: an operand that is no bit is no statement. -/
theorem test_parse_refuses : parseStmt ['R', ' ', '2', ' ', '0', ' ', '0'] = none := by decide

/-! ### Witnesses: a case that meets the hypotheses of each statement, and of each of its clauses -/

theorem witness_EveryWordSelectsOneRow :
    0x1C#5 &&& 3#5 = 0#5 ∧ 0x1D#5 &&& 3#5 = 1#5 ∧ 0x1E#5 &&& 3#5 = 2#5 ∧ 0x1F#5 &&& 3#5 = 3#5 := by decide

theorem witness_DecodeInvertsEncode :
    Instr.wf (.rise ⟨5, 1, 1, 1⟩) = true ∧ Instr.wf (.rise ⟨5, 1, 1, 2⟩) = false := by decide

theorem witness_StreamEntryDecodes : 2 ^ 64 - 1 < 2 ^ 64 := by decide

theorem witness_FrontEndClassifiesEverySample :
    [[0x00#8, 0x01#8], [0x01#8, 0x00#8]].flatten[0]? = some 0x00#8 ∧
    [[0x00#8, 0x01#8], [0x01#8, 0x00#8]].flatten[1]? = some 0x01#8 ∧
    [[0x00#8, 0x01#8], [0x01#8, 0x00#8]].flatten[2]? = some 0x01#8 ∧
    [[0x00#8, 0x01#8], [0x01#8, 0x00#8]].flatten[3]? = some 0x00#8 := by decide

theorem witness_StatementAssemblesToItsCommand :
    (⟨.noEdge, 0, 0, 0, none⟩ : Stmt).op = .noEdge ∧ (⟨.rising, 1, 1, 1, some 3⟩ : Stmt).op = .rising ∧
    (⟨.falling, 0, 1, 0, none⟩ : Stmt).op = .falling := by decide

theorem witness_NoneWritesOnlyPrev :
    (0b11100#5).extractLsb' 0 2 = 0#2 ∧ (stateAt .shIR).sim.fault = none ∧
    Operands.pinsOk ⟨0, 0, 2, 0⟩ = false := by decide

theorem witness_FallWritesOnlyPrev :
    (0b11110#5).extractLsb' 0 2 = 2#2 ∧ (stateAt .pauseDR).sim.fault = none ∧
    Operands.pinsOk ⟨0, 2, 0, 0⟩ = false := by decide

theorem witness_ReservedCodeRaisesEdgeError :
    (0b00011#5).extractLsb' 0 2 = 3#2 ∧ (stateAt .updIR).sim.fault = none := by decide

/-- The boundary value 2 in each field, with the fields checked before it at 1. -/
theorem witness_ValidationNamesFirstBadField :
    (stateAt .shDR).sim.fault = none ∧ 1 < (⟨0, 2, 2, 2⟩ : Operands).modeSelect ∧
    ((⟨0, 2, 2, 1⟩ : Operands).modeSelect ≤ 1 ∧ 1 < (⟨0, 2, 2, 1⟩ : Operands).dataOut) ∧
    ((⟨0, 1, 2, 1⟩ : Operands).modeSelect ≤ 1 ∧ (⟨0, 1, 2, 1⟩ : Operands).dataOut ≤ 1 ∧
      1 < (⟨0, 1, 2, 1⟩ : Operands).dataIn) := by decide

/-- A faulted state with one command left. -/
def faultedState : State := raiseFatal (stateAt .selIR) 4 .edge

theorem witness_FaultedStateIgnoresCommands : faultedState.sim.fault ≠ none := by decide

theorem witness_FaultIsNeverCleared : faultedState.sim.fault ≠ none ∧ 1 ≤ faultedState.stream.length := by decide

theorem witness_QuotedGraphRows :
    ((stateAt .tlr).sim.fault = none ∧ (stateAt .tlr).sim.tap = .tlr) ∧
    ((stateAt .shDR).sim.fault = none ∧ (stateAt .shDR).sim.tap = .shDR ∧ ShiftReady (stateAt .shDR) ∧
      (stateAt .shDR).sim.ones < 4) := by
  refine ⟨by decide, rfl, rfl, fun _ => ⟨rfl, .inl rfl⟩, by decide⟩

/-- Every row of the table has a state that meets the hypotheses. -/
theorem witness_RiseFollowsGraphTable (a : TapState) :
    (stateAt a).sim.Inv ∧ (stateAt a).sim.fault = none ∧ (stateAt a).sim.tap = a :=
  ⟨(stateAt_inv a).sim, rfl, rfl⟩

theorem witness_OnlyRisingEdgesMoveTap :
    (∃ t, exec (.noEdge ⟨0, 0, 0, 1⟩) (stateAt .rti) = .next t ∧ ∀ c, Instr.noEdge ⟨0, 0, 0, 1⟩ ≠ .rise c) ∧
    (∃ t, exec (.rise (bitOperands 0 0 0 1)) { stateAt .rti with sim := { (stateAt .rti).sim with ones := 4 } } =
      .next t ∧ t.sim.fault = none) ∧
    (∃ t, exec (.rise (bitOperands 0 0 0 1)) { stateAt .rti with sim := { (stateAt .rti).sim with ones := 3 } } =
      .next t ∧ t.sim.fault = none) :=
  ⟨⟨_, rfl, by simp⟩, ⟨_, rfl, rfl⟩, ⟨_, rfl, rfl⟩⟩

theorem witness_OnesCountsRisingOnes :
    (∃ t, exec (.fall ⟨0, 0, 0, 1⟩) (stateAt .rti) = .next t ∧ ∀ c, Instr.fall ⟨0, 0, 0, 1⟩ ≠ .rise c) ∧
    (∃ t, exec (.rise (bitOperands 0 0 0 1)) (stateAt .rti) = .next t ∧ t.sim.fault = none) ∧
    (∃ t, exec (.rise (bitOperands 0 0 0 0)) (stateAt .rti) = .next t ∧ t.sim.fault = none) :=
  ⟨⟨_, rfl, by simp⟩, ⟨_, rfl, rfl⟩, ⟨_, rfl, rfl⟩⟩

/-- A state of the invariant with four ones counted: Select-IR-Scan, four ones after Capture-DR. -/
def fourOnes : State := { stateAt .selIR with sim := { (stateAt .selIR).sim with ones := 4 } }

theorem fourOnes_inv : fourOnes.sim.Inv := by
  obtain ⟨⟨⟩, _, _⟩ := stateAt_inv .selIR
  constructor <;> first | assumption | exact ⟨.capDR, rfl⟩ | decide

theorem witness_ForcedResetIsRedundant : fourOnes.sim.Inv ∧ 4 ≤ fourOnes.sim.ones := ⟨fourOnes_inv, by decide⟩

theorem witness_RiseCompletes : (stateAt .shIR).sim.Inv ∧ (stateAt .shIR).sim.fault = none :=
  ⟨(stateAt_inv _).sim, rfl⟩

/-- Both values of mode_select: Select-DR-Scan to Select-IR-Scan at the largest count, and Pause-DR to itself. -/
theorem witness_RiseElsewhereTouchesNoRegister :
    (∀ p : TapState × Bit × Nat, p = (.selDR, 1, 3) ∨ p = (.pauseDR, 0, 5) →
      (stateAt p.1).sim.fault = none ∧ (p.2.1 = 1 → p.2.2 < 4) ∧ isShift p.1 = false ∧
      isCapture (nextTap p.1 p.2.1) = false ∧ isExit1 (nextTap p.1 p.2.1) = false ∧
      isUpdate (nextTap p.1 p.2.1) = false ∧ nextTap p.1 p.2.1 ≠ .tlr ∧ isExit2 p.1 = false) := by
  rintro p (rfl | rfl) <;> decide

theorem witness_CaptureOpensEmptyRegister :
    (stateAt .selDR).sim.fault = none ∧ (stateAt .selDR).sim.tap = .selDR ∧
    (stateAt .selIR).sim.fault = none ∧ (stateAt .selIR).sim.tap = .selIR := by decide

/-- Both phases, and BeforeEdge with no command before. -/
theorem witness_ShiftAppendsSampledBits :
    (stateAt .shIR).sim.fault = none ∧ isShift (stateAt .shIR).sim.tap = true ∧
    (stateAt .shIR).sim.openReg = some (emptyRegister .ir) ∧ (stateAt .shIR).cfg.samplePhase = .onEdge ∧
    (stateAt .shIR).sim.prev = some (0, 0) ∧
    ({ stateAt .shIR with cfg := ⟨.beforeEdge⟩ } : State).cfg.samplePhase = .beforeEdge ∧
    ({ (stateAt .shIR).sim with prev := none } : SimState).prev = none := by decide

theorem witness_EnteringShiftAppendsNothing :
    (stateAt .capDR).sim.fault = none ∧ (stateAt .capDR).sim.tap = .capDR ∧
    (stateAt .capIR).sim.fault = none ∧ (stateAt .capIR).sim.tap = .capIR := by decide

theorem witness_ExitSealsRegister :
    (stateAt .shDR).sim.fault = none ∧ (stateAt .shDR).sim.tap = .shDR ∧
    (stateAt .shDR).sim.openReg = some (emptyRegister .dr) ∧ (stateAt .shDR).sim.ones < 4 ∧
    (stateAt .shDR).cfg.samplePhase = .onEdge ∧ (stateAt .shDR).sim.prev = some (0, 0) ∧
    ({ stateAt .shDR with cfg := ⟨.beforeEdge⟩ } : State).cfg.samplePhase = .beforeEdge := by decide

theorem witness_CaptureToExitSealsEmpty :
    (stateAt .capIR).sim.Inv ∧ (stateAt .capIR).sim.fault = none ∧ (stateAt .capIR).sim.tap = .capIR :=
  witness_RiseFollowsGraphTable .capIR

theorem witness_ResumeOpensNewSegment :
    (stateAt .ex2DR).sim.fault = none ∧ (stateAt .ex2DR).sim.tap = .ex2DR ∧
    (stateAt .ex2IR).sim.fault = none ∧ (stateAt .ex2IR).sim.tap = .ex2IR := by decide

/-- Each clause: the four states from which Update-xR is entered. -/
theorem witness_UpdateLatchesPending (a : TapState) (_ : a = .ex1DR ∨ a = .ex2DR ∨ a = .ex1IR ∨ a = .ex2IR) :
    (stateAt a).sim.Inv ∧ (stateAt a).sim.fault = none ∧ (stateAt a).sim.tap = a :=
  witness_RiseFollowsGraphTable a

/-- Each of the three ways in; the forced reset from a shift state with four ones counted (no run reaches it). -/
theorem witness_TestLogicResetClearsRegisters :
    ((stateAt .tlr).sim.fault = none ∧ (stateAt .tlr).sim.tap = .tlr) ∧
    ((stateAt .selIR).sim.fault = none ∧ (stateAt .selIR).sim.tap = .selIR) ∧
    (let s : State := { stateAt .shDR with sim := { (stateAt .shDR).sim with ones := 4 } };
      s.sim.fault = none ∧ 4 ≤ s.sim.ones ∧ ShiftReady s) :=
  ⟨by decide, by decide, rfl, by decide, fun _ => ⟨rfl, .inl rfl⟩⟩

/-- A latch that changes at Update-IR, one that changes at Test-Logic-Reset, and a fault that is raised. -/
theorem witness_WriterTableHolds :
    (∃ t, exec (.rise (bitOperands 0 0 0 1)) (stateAt .ex1IR) = .next t ∧
      t.sim.latchedIr ≠ (stateAt .ex1IR).sim.latchedIr) ∧
    (let s : State := { stateAt .selIR with sim := { (stateAt .selIR).sim with latchedDr := some (emptyRegister .dr) } };
      ∃ t, exec (.rise (bitOperands 0 0 0 1)) s = .next t ∧ t.sim.latchedDr ≠ s.sim.latchedDr) ∧
    (∃ t, exec (.fall ⟨0, 2, 0, 0⟩) (stateAt .rti) = .next t ∧ t.sim.fault ≠ (stateAt .rti).sim.fault ∧
      ∀ c, Instr.fall ⟨0, 2, 0, 0⟩ ≠ .rise c) :=
  ⟨⟨_, rfl, by decide⟩, ⟨_, rfl, by decide⟩, ⟨_, rfl, by decide, by simp⟩⟩

theorem witness_CommandsLeaveInputAlone : ∃ t, exec (.rise (bitOperands 0 0 0 0)) (stateAt .selDR) = .next t :=
  ⟨_, rfl⟩

/-- A command that is not RISE, a RISE that faults, and a RISE that does not. -/
theorem witness_StepEmitsTransitionFirst :
    (∃ t, exec (.noEdge (bitOperands 0 0 0 0)) (stateAt .shDR) = .next t ∧
      ∀ c, Instr.noEdge (bitOperands 0 0 0 0) ≠ .rise c) ∧
    (∃ t, exec (.rise ⟨0, 2, 0, 0⟩) (stateAt .shDR) = .next t ∧ t.sim.fault ≠ none) ∧
    (∃ t, exec (.rise (bitOperands 0 0 0 1)) (stateAt .shDR) = .next t ∧ t.sim.fault = none) :=
  ⟨⟨_, rfl, by simp⟩, ⟨_, rfl, by decide⟩, ⟨_, rfl, rfl⟩⟩

theorem witness_PassiveCommandsAreIdempotent :
    (∃ c, Instr.noEdge (bitOperands 0 1 0 0) = .noEdge c) ∧
    ∃ t u, exec (.noEdge (bitOperands 0 1 0 0)) (stateAt .shDR) = .next t ∧
      exec (.noEdge (bitOperands 0 1 0 0)) t = .next u :=
  ⟨⟨_, rfl⟩, _, _, rfl, rfl⟩

theorem witness_StepRunsNextCommand :
    (stateAt .rti).stream = .word none 0b00001#5 :: [] ∧ State.reset.stream = [] := ⟨rfl, rfl⟩

theorem witness_StepKeepsInvariant : (stateAt .capDR).Inv ∧ ∃ t, step (stateAt .capDR) = .next t :=
  ⟨stateAt_inv _, _, rfl⟩

theorem witness_StepNeverSticks : (stateAt .updDR).sim.Inv ∧ (stateAt .updDR).stream ≠ [] :=
  ⟨(stateAt_inv _).sim, by decide⟩

/-- Rising commands with these mode_select values, all with the same data bits. -/
def rises (ms : List Bit) : List Instr := ms.map fun m => .rise (bitOperands 0 1 0 m)

theorem witness_FiveOnesReachTestLogicReset :
    (stateAt .pauseIR).sim.Inv ∧ (stateAt .pauseIR).sim.fault = none ∧
    (∀ i ∈ .fall (bitOperands 0 0 0 0) :: rises [1, 1, 1, 1, 1] ++ rises [0], i.protocolValid = true) ∧
    risingModes (.fall (bitOperands 0 0 0 0) :: rises [1, 1, 1, 1, 1]) = [1, 1, 1, 1, 1] ∧
    risingModes (rises [0]) = [0] :=
  ⟨(stateAt_inv _).sim, rfl, by decide, by decide, by decide⟩

theorem witness_IrScanSealsOneRegister :
    (stateAt .selIR).sim.Inv ∧ (stateAt .selIR).sim.fault = none ∧ (stateAt .selIR).sim.tap = .selIR ∧
    (∀ i ∈ rises [0, 0, 0, 1, 1], i.protocolValid = true) ∧
    risingModes (rises [0, 0, 0, 1, 1]) = [0, 0] ++ List.replicate 1 0 ++ [1] ++ [1] :=
  ⟨(stateAt_inv _).sim, rfl, rfl, by decide, by decide⟩

theorem witness_FiveOnesSynchronise :
    (stateAt .pauseDR).sim.Inv ∧ (stateAt .pauseDR).sim.fault = none ∧ (stateAt .pauseDR).sim.ones = 0 ∧
    (∀ i ∈ rises [1, 1, 1, 1, 1] ++ rises [0], i.protocolValid = true) ∧
    ∃ t u, execAll (rises [1, 1, 1, 1, 1]) (stateAt .pauseDR) = .next t ∧ t.sim.ones = 5 ∧
      execAll (rises [0]) t = .next u :=
  ⟨(stateAt_inv _).sim, rfl, rfl, by decide, _, _, rfl, rfl, rfl⟩

theorem witness_DroppingNoneKeepsTrajectory :
    (stateAt .shDR).sim.Inv ∧ (stateAt .shDR).sim.fault = none ∧
    (∀ i ∈ .noEdge (bitOperands 0 1 1 0) :: rises [0, 1], i.protocolValid = true) ∧
    (stateAt .shDR).cfg.samplePhase = .onEdge :=
  ⟨(stateAt_inv _).sim, rfl, by decide, rfl⟩

theorem witness_SteadyDataHidesPhase :
    dataSteady (stateAt .shDR).sim.prev (.fall (bitOperands 0 1 0 0) :: rises [0, 1]) ∧
    (stateAt .shDR).cfg.samplePhase = .onEdge ∧
    ∃ t, execAll (.fall (bitOperands 0 1 0 0) :: rises [0, 1]) (stateAt .shDR) = .next t :=
  ⟨⟨rfl, rfl, trivial⟩, rfl, _, rfl⟩

theorem witness_BatchesComposeToOneRun :
    ∃ t, Host.Core.run Sys2Proof.core [PortInput.word none 0x01#5].length
      ((State.resetWith .onEdge).load [PortInput.word none 0x01#5]) = .next t := ⟨_, rfl⟩

theorem witness_WellFormedRunCompletes (k : Nat) (c : PortInput)
    (h : [PortInput.record ⟨0, .rising, 0, 0, 1⟩][k]? = some c) : (decodeInput k c).protocolValid = true := by
  cases k with
  | zero => obtain rfl : PortInput.record ⟨0, .rising, 0, 0, 1⟩ = c := by simpa using h
            decide
  | succ k => simp at h

/-- Each clause: the reserved code, and the boundary value 2 in each field, with the fields checked before it at 1. -/
theorem witness_FirstBadCommandEndsRun :
    (∀ k c, [PortInput.record ⟨0, .rising, 0, 0, 1⟩][k]? = some c → (decodeInput k c).protocolValid = true) ∧
    (let i := decodeInput 1 (.word (some 1) 0b11111#5); i = .reserved i.operands) ∧
    (let i := decodeInput 1 (.record ⟨1, .rising, 2, 2, 2⟩); i ≠ .reserved i.operands ∧ 1 < i.operands.modeSelect) ∧
    (let i := decodeInput 1 (.record ⟨1, .noEdge, 2, 2, 1⟩);
      i ≠ .reserved i.operands ∧ i.operands.modeSelect ≤ 1 ∧ 1 < i.operands.dataOut) ∧
    (let i := decodeInput 1 (.record ⟨1, .falling, 1, 2, 1⟩);
      i ≠ .reserved i.operands ∧ i.operands.modeSelect ≤ 1 ∧ i.operands.dataOut ≤ 1 ∧ 1 < i.operands.dataIn) :=
  ⟨witness_WellFormedRunCompletes, by decide, by decide, by decide, by decide⟩

end Sys2Proof.Tests
end

section
/-! SUPPORT. Command words and records: the fields of a word as numbers, the row each edge code selects, and the
statements about rows, codes and the reserved code (30_encoding.md R66 to R69). -/

namespace Sys2Proof

/-! ### The fields of a word -/

theorem bitAt_eq_div_mod {n : Nat} (w : BitVec n) (i : Nat) : bitAt w i = w.toNat / 2 ^ i % 2 :=
  Nat.toNat_testBit w.toNat i

/-- The pin fields of a word as numbers; bit 4 is the highest, so nothing stands above it. -/
theorem operandsOfWord_eq (k : SeqIndex) (w : CmdWord) :
    operandsOfWord k w = ⟨k, w.toNat / 4 % 2, w.toNat / 8 % 2, w.toNat / 16⟩ := by
  have hm : w.toNat / 16 % 2 = w.toNat / 16 := by omega
  simp [operandsOfWord, bitAt_eq_div_mod, hm]

/-- The mask of the opcode map keeps the edge field. -/
theorem and_mask_eq_edgeField (w : CmdWord) : w &&& 3#5 = (edgeField w).setWidth 5 := by
  revert w; decide

theorem edgeField_cases (w : CmdWord) :
    edgeField w = 0#2 ∨ edgeField w = 1#2 ∨ edgeField w = 2#2 ∨ edgeField w = 3#2 := by
  generalize edgeField w = e
  revert e; decide

/-! ### The row an edge code selects -/

section
variable {k : SeqIndex} {w : CmdWord}

theorem decodeWord_of_edge_none (h : edgeField w = 0#2) : decodeWord k w = .noEdge (operandsOfWord k w) := by
  simp [decodeWord, h]

theorem decodeWord_of_edge_rising (h : edgeField w = 1#2) : decodeWord k w = .rise (operandsOfWord k w) := by
  simp [decodeWord, h]

theorem decodeWord_of_edge_falling (h : edgeField w = 2#2) : decodeWord k w = .fall (operandsOfWord k w) := by
  simp [decodeWord, h]

theorem decodeWord_of_edge_reserved (h : edgeField w = 3#2) :
    decodeWord k w = .reserved (operandsOfWord k w) := by
  simp [decodeWord, h]

end

/-- The edge class of a record has three values, none of which is the reserved code (30_encoding.md R67). -/
theorem decodeRecord_ne_reserved (r : FtdiCommand) (c : Operands) : decodeRecord r ≠ .reserved c := by
  obtain ⟨k, e, o, i, m⟩ := r
  cases e <;> simp [decodeRecord]

/-- Settles O2: the edge field takes one of four values, the mask keeps it, and each value selects its row. -/
theorem everyWordSelectsOneRow : Obligations.EveryWordSelectsOneRow := by
  intro k w c
  have hc : operandsOfWord k w = c := operandsOfWord_eq k w
  rw [and_mask_eq_edgeField, ← hc]
  rcases edgeField_cases w with h | h | h | h
  · exact .inl ⟨by rw [h]; rfl, decodeWord_of_edge_none h⟩
  · exact .inr (.inl ⟨by rw [h]; rfl, decodeWord_of_edge_rising h⟩)
  · exact .inr (.inr (.inl ⟨by rw [h]; rfl, decodeWord_of_edge_falling h⟩))
  · exact .inr (.inr (.inr ⟨by rw [h]; rfl, decodeWord_of_edge_reserved h⟩))

namespace Machine

/-! ### The reserved code -/

/-- RESERVED in a state without a fault is the fatal error that names the edge (42_commands.md R162). -/
theorem exec_reserved_of_no_fault {s : State} {c : Operands} (h : s.sim.fault = none) :
    exec (.reserved c) s = .next (raiseFatal s c.sequenceIndex .edge) := by
  simp [exec, execReserved, isFaulted, conclude, h]

/-- Settles O16, from the row of edge code 11, the three edge classes of a record, and the effect of RESERVED. -/
theorem reservedCodeRaisesEdgeError : Obligations.ReservedCodeRaisesEdgeError :=
  ⟨fun k w h => ⟨operandsOfWord k w, rfl, decodeWord_of_edge_reserved h⟩, decodeRecord_ne_reserved,
    fun _ _ h => exec_reserved_of_no_fault h⟩

/-! ### The serialized codes -/

theorem tapCode_tapOfCode (c : BitVec 4) : tapCode (tapOfCode c) = c := by
  revert c; decide

theorem tapOfCode_tapCode (s : TapState) : tapOfCode (tapCode s) = s := by
  cases s <;> rfl

/-- Settles O11: `tapCode` and `tapOfCode` are inverse to each other; the other codes are read off their tables. -/
theorem stateCodesAreAllUsed : Obligations.StateCodesAreAllUsed :=
  ⟨tapCode_tapOfCode, tapOfCode_tapCode, rfl, rfl, rfl, rfl, rfl⟩

end Machine

end Sys2Proof
end

section
/-! SUPPORT. The front end (30_encoding.md R60 to R64): the pins of a byte as numbers, the command at each position of
a trace, and the statements about samples. -/

namespace Sys2Proof.Machine

/-! ### The pins of a byte -/

theorem pinLevel_val (b : Byte) (pin : Nat) : (pinLevel b pin).val = b.toNat / 2 ^ pin % 2 := by
  rw [← bitAt_eq_div_mod]
  unfold pinLevel bitAt
  cases b.getLsbD pin <;> rfl

theorem pinSample_clock_val (b : Byte) : (pinSample b).clock.val = b.toNat % 2 := by
  simp [pinSample, pinLevel_val, Config.clockPin]

theorem pinSample_dataOut_val (b : Byte) : (pinSample b).dataOut.val = b.toNat / 2 % 2 :=
  pinLevel_val b 1

theorem pinSample_dataIn_val (b : Byte) : (pinSample b).dataIn.val = b.toNat / 4 % 2 :=
  pinLevel_val b 2

theorem pinSample_modeSelect_val (b : Byte) : (pinSample b).modeSelect.val = b.toNat / 8 % 2 :=
  pinLevel_val b 3

/-- The four pins are bits 0 to 3, so a sample does not see the high four bits (30_encoding.md R61). -/
theorem pinSample_and_low (b : Byte) : pinSample (b &&& 0x0F#8) = pinSample b := by
  have low (pin : Nat) (h : (0x0F#8).getLsbD pin = true) : pinLevel (b &&& 0x0F#8) pin = pinLevel b pin := by
    simp only [pinLevel, BitVec.getLsbD_and, h, Bool.and_true]
  simp only [pinSample, low Config.clockPin rfl, low Config.dataOutPin rfl, low Config.dataInPin rfl,
    low Config.modeSelectPin rfl]

/-! ### The edge of a sample -/

@[simp] theorem classifyEdge_none (now : Bit) : classifyEdge none now = .noEdge := rfl

/-- The edge of a sample with one before it, by the values of the two clock bits (30_encoding.md R63). -/
theorem classifyEdge_some (before now : Bit) :
    (before.val = 0 ∧ now.val = 1 → classifyEdge (some before) now = .rising) ∧
    (before.val = 1 ∧ now.val = 0 → classifyEdge (some before) now = .falling) ∧
    (before.val = now.val → classifyEdge (some before) now = .noEdge) := by
  revert before now; decide

/-- The indices that `u64` holds are the positions themselves (30_encoding.md R62). -/
theorem indexAt_toNat {p : Nat} (h : p < 2 ^ 64) : (indexAt p).toNat = p := by
  simp only [indexAt, h, if_true, BitVec.toNat_ofNat, Nat.mod_eq_of_lt]

/-! ### The command at a position -/

/-- The clock bit before position `k` of a list of samples, `before` being that of the sample before the list. -/
def clockBefore (before : Option Bit) (bs : List Byte) : Nat → Option Bit
  | 0 => before
  | j + 1 => bs[j]?.map fun a => (pinSample a).clock

@[simp] theorem length_frontEndFrom (before : Option Bit) (n : Nat) (bs : List Byte) :
    (frontEndFrom before n bs).length = bs.length := by
  induction bs generalizing before n with
  | nil => rfl
  | cons b rest ih => simp [frontEndFrom, ih]

/-- The command at position `k` is that of the sample there, with the clock bit before it. -/
theorem frontEndFrom_getElem? {bs : List Byte} {k : Nat} {b : Byte} (before : Option Bit) (n : Nat)
    (h : bs[k]? = some b) :
    (frontEndFrom before n bs)[k]? =
      some (commandOfSample (indexAt (n + k)) (classifyEdge (clockBefore before bs k) (pinSample b).clock)
        (pinSample b)) := by
  induction bs generalizing before n k with
  | nil => simp at h
  | cons a rest ih =>
    cases k with
    | zero =>
      obtain rfl : a = b := by simpa using h
      rfl
    | succ k =>
      have hclock : clockBefore (some (pinSample a).clock) rest k = clockBefore before (a :: rest) (k + 1) := by
        cases k <;> rfl
      have hrest : rest[k]? = some b := by simpa using h
      simpa [frontEndFrom, hclock, Nat.add_assoc, Nat.add_comm 1] using ih (some (pinSample a).clock) (n + 1) hrest

/-- A change of the bytes that no sample sees changes no command. -/
theorem frontEndFrom_map {f : Byte → Byte} (hf : ∀ b, pinSample (f b) = pinSample b) (before : Option Bit) (n : Nat)
    (bs : List Byte) : frontEndFrom before n (bs.map f) = frontEndFrom before n bs := by
  induction bs generalizing before n with
  | nil => rfl
  | cons b rest ih => simp [frontEndFrom, hf, ih]

/-- Settles O6, from the command at each position of the concatenated trace. -/
theorem frontEndClassifiesEverySample : Obligations.FrontEndClassifiesEverySample := by
  intro payloads
  refine ⟨length_frontEndFrom _ _ _, fun k b hb => ⟨_, frontEndFrom_getElem? none 0 hb, ?index,
    pinSample_dataOut_val b, pinSample_dataIn_val b, pinSample_modeSelect_val b, ?first, ?later⟩⟩
  case index =>
    intro hk
    rw [Nat.zero_add]
    exact indexAt_toNat hk
  case first =>
    rintro rfl
    rfl
  case later =>
    rintro j a rfl ha
    have hbefore : clockBefore none payloads.flatten (j + 1) = some (pinSample a).clock := by
      simp [clockBefore, ha]
    rw [hbefore, ← pinSample_clock_val a, ← pinSample_clock_val b]
    exact classifyEdge_some _ _

/-- Settles O7: masking each payload masks the concatenated trace, and no sample sees the mask. -/
theorem highPinBitsIgnored : Obligations.HighPinBitsIgnored := by
  intro payloads
  unfold frontEnd
  rw [← List.map_flatten]
  exact frontEndFrom_map pinSample_and_low none 0 payloads.flatten

end Sys2Proof.Machine
end

section
/-! SUPPORT. The TAP controller (40_tap_controller.md): the counter of ones and the forced reset in the spec's numbers,
RISE run forward from its shift and its entry, and the statements about `tap` and `ones`. -/

namespace Sys2Proof.Machine

/-! ### The counter and the forced reset -/

/-- The counter with the spec's bound written out (40_tap_controller.md R110). -/
theorem countOnes_eq (n : Nat) (m : Bit) : countOnes n m = if m = 1 then min (n + 1) 5 else 0 := rfl

/-- The fifth one is counted at a one with four or more before it. -/
theorem countOnes_eq_resetOnes_iff (n : Nat) (m : Bit) :
    countOnes n m = Config.resetOnes ↔ m = 1 ∧ 4 ≤ n := by
  rw [countOnes_eq, Config.resetOnes]
  split
  · next hm => simp only [hm, true_and]; omega
  · next hm => simp [hm]

/-- The state a RISE enters, the forced reset taken into account (40_tap_controller.md R111). -/
theorem forceReset_countOnes (n : Nat) (m : Bit) (a : TapState) :
    forceReset (countOnes n m) a = if m = 1 ∧ 4 ≤ n then .tlr else a := by
  simp only [forceReset, countOnes_eq_resetOnes_iff]

/-- A zero forces no reset, whatever was counted before it. -/
@[simp] theorem forceReset_countOnes_zero (n : Nat) (a : TapState) : forceReset (countOnes n 0) a = a := by
  simp [forceReset_countOnes]

/-- A one with fewer than four before it forces no reset. -/
theorem forceReset_countOnes_of_lt {n : Nat} (h : n < 4) (m : Bit) (a : TapState) :
    forceReset (countOnes n m) a = a := by
  simp [forceReset_countOnes, h]

/-- Where the graph gives Test-Logic-Reset, the forced reset changes nothing. -/
@[simp] theorem forceReset_tlr (n : Nat) : forceReset n .tlr = .tlr := by
  simp [forceReset]

/-! ### The shift -/

/-- Outside Shift-xR nothing is asked of a shift. -/
theorem shiftReady_of_not_shift {s : State} (h : isShift s.sim.tap = false) : ShiftReady s := by
  simp [ShiftReady, h]

/-- Where a shift can take place it finishes: it writes `open` only, and in Shift-xR leaves a register there. -/
theorem shiftIn_of_shiftReady {s : State} (p : Pins) (h : ShiftReady s) :
    ∃ reg, shiftIn s.cfg.samplePhase p s.sim = .ok (s.sim.setOpen reg) ∧
      (isShift s.sim.tap = true → ∃ r, reg = some r) := by
  cases hs : isShift s.sim.tap with
  | false => exact ⟨s.sim.openReg, by simp [shiftIn, hs, SimState.setOpen], by simp⟩
  | true =>
    obtain ⟨hopen, hphase⟩ := h hs
    obtain ⟨r, hr⟩ := Option.isSome_iff_exists.1 hopen
    obtain ⟨b, hb⟩ : ∃ b, shiftBits s.cfg.samplePhase s.sim.prev p = .ok b := by
      rcases hphase with hp | hp
      · exact ⟨dataBits p, by rw [hp]; rfl⟩
      · obtain ⟨b, hb⟩ := Option.isSome_iff_exists.1 hp
        rw [hb]
        cases s.cfg.samplePhase with
        | onEdge => exact ⟨dataBits p, rfl⟩
        | beforeEdge => exact ⟨b, rfl⟩
    exact ⟨some (appendBits r b), by simp [shiftIn, hs, hr, hb], fun _ => ⟨_, rfl⟩⟩

/-! ### RISE -/

/-- With no fatal error and bits in the pin fields, RISE is its body. -/
theorem exec_rise_of_no_fault {s : State} {k : SeqIndex} {o i m : Bit} (hf : s.sim.fault = none) :
    exec (.rise (bitOperands k o i m)) s = conclude s k (riseBody s.cfg.samplePhase k ⟨o, i, m⟩ s.sim) :=
  applyCommand_of_bits hf

/-- A RISE whose shift and whose entry into the new state finish answers the state they leave. -/
theorem exec_rise_of_enter {s : State} {k : SeqIndex} {o i m : Bit} {a : TapState} {shifted entered : SimState}
    {evs : List Event} (hf : s.sim.fault = none)
    (hshift : shiftIn s.cfg.samplePhase ⟨o, i, m⟩ s.sim = .ok shifted)
    (ha : forceReset (countOnes s.sim.ones m) (nextTap s.sim.tap m) = a)
    (henter : enter k s.sim.tap a (shifted.setOnes (countOnes s.sim.ones m)) = .ok (entered, evs)) :
    exec (.rise (bitOperands k o i m)) s =
      .next ((s.setSim (recordPrev ⟨o, i, m⟩ (entered.setTap a))).emit (.transition k s.sim.tap a :: evs)) := by
  rw [exec_rise_of_no_fault hf]
  simp [riseBody, hshift, ha, henter, conclude]

/-- The TAP state after such a RISE is the one it enters. -/
theorem exec_rise_tap_of_enter {s : State} {k : SeqIndex} {o i m : Bit} {a : TapState} {shifted entered : SimState}
    {evs : List Event} (hf : s.sim.fault = none)
    (hshift : shiftIn s.cfg.samplePhase ⟨o, i, m⟩ s.sim = .ok shifted)
    (ha : forceReset (countOnes s.sim.ones m) (nextTap s.sim.tap m) = a)
    (henter : enter k s.sim.tap a (shifted.setOnes (countOnes s.sim.ones m)) = .ok (entered, evs)) :
    ∃ t, exec (.rise (bitOperands k o i m)) s = .next t ∧ t.sim.tap = a :=
  ⟨_, exec_rise_of_enter hf hshift ha henter, rfl⟩

/-- A RISE that raises no error took the result of its body whole. -/
theorem riseBody_of_exec_rise {s t : State} {k : SeqIndex} {o i m : Bit} (hs : s.sim.fault = none)
    (ht : t.sim.fault = none) (h : exec (.rise (bitOperands k o i m)) s = .next t) :
    ∃ st evs, riseBody s.cfg.samplePhase k ⟨o, i, m⟩ s.sim = .ok (st, evs) ∧ t = (s.setSim st).emit evs := by
  rw [exec_rise_of_no_fault hs] at h
  rcases conclude_cases h with hbody | ⟨f, _, rfl⟩
  · exact hbody
  · simp at ht

/-- A command that is not RISE writes at most `prev` and `fault` of the block's record (10_state.md R31). -/
theorem exec_sim_of_not_rise {i : Instr} {s t : State} (h : exec i s = .next t) (hi : ∀ c, i ≠ .rise c) :
    ∃ p f, t.sim = { s.sim with prev := p, fault := f } := by
  rcases exec_cases h with ⟨rfl, _⟩ | ⟨_, f, rfl⟩ | ⟨_, p, st, evs, _, rfl, ⟨rfl, _, _⟩ | ⟨c, hc, _⟩⟩
  · exact ⟨_, _, rfl⟩
  · exact ⟨_, _, rfl⟩
  · exact ⟨_, _, rfl⟩
  · exact absurd hc (hi c)

/-! ### The statements -/

/-- Entering Test-Logic-Reset, with the shift before it if one is due, leaves no register and no latch
(41_shift_registers.md R137). -/
theorem exec_rise_into_tlr {s : State} {k : SeqIndex} {o i m : Bit} (hf : s.sim.fault = none) (hready : ShiftReady s)
    (ha : forceReset (countOnes s.sim.ones m) (nextTap s.sim.tap m) = .tlr) :
    exec (.rise (bitOperands k o i m)) s =
      .next { s with
        sim := { tap := .tlr, openReg := none, pending := none, latchedIr := none, latchedDr := none,
                 ones := countOnes s.sim.ones m, prev := some (o, i), fault := none }
        log := s.log ++ [.transition k s.sim.tap .tlr] } := by
  obtain ⟨reg, hshift, _⟩ := shiftIn_of_shiftReady ⟨o, i, m⟩ hready
  rw [exec_rise_of_enter hf hshift ha rfl, ← hf]
  rfl

/-- Settles O34: each of the three ways in enters Test-Logic-Reset from a state where the shift can take place. -/
theorem testLogicResetClearsRegisters : Obligations.TestLogicResetClearsRegisters := by
  intro s k o i hf hway
  have hready : ShiftReady s := by
    rcases hway with ht | ht | ⟨_, hready⟩
    · exact shiftReady_of_not_shift (by rw [ht]; rfl)
    · exact shiftReady_of_not_shift (by rw [ht]; rfl)
    · exact hready
  have ha : forceReset (countOnes s.sim.ones 1) (nextTap s.sim.tap 1) = .tlr := by
    rcases hway with ht | ht | ⟨hones, _⟩
    · rw [ht]; exact forceReset_tlr _
    · rw [ht]; exact forceReset_tlr _
    · simp [forceReset_countOnes, hones]
  exact exec_rise_into_tlr hf hready ha

/-- Settles O20: the row of Test-Logic-Reset by an entry without effect and by the reset itself; that of Shift-DR by the
shift and, on a one, the seal of the register it leaves open. -/
theorem quotedGraphRows : Obligations.QuotedGraphRows := by
  intro s k o i hf
  refine ⟨fun ht => ⟨?tlrZero, ?tlrOne⟩, fun ht hready => ⟨?shiftZero, fun hones => ?shiftOne⟩⟩
  case tlrZero =>
    obtain ⟨reg, hshift, _⟩ := shiftIn_of_shiftReady ⟨o, i, 0⟩ (shiftReady_of_not_shift (s := s) (by rw [ht]; rfl))
    exact exec_rise_tap_of_enter hf hshift (by rw [ht, forceReset_countOnes_zero]; rfl) rfl
  case tlrOne => exact ⟨_, testLogicResetClearsRegisters s k o i hf (.inl ht), rfl⟩
  case shiftZero =>
    obtain ⟨reg, hshift, _⟩ := shiftIn_of_shiftReady ⟨o, i, 0⟩ hready
    exact exec_rise_tap_of_enter hf hshift (by rw [ht, forceReset_countOnes_zero]; rfl) (by rw [ht]; rfl)
  case shiftOne =>
    obtain ⟨reg, hshift, hopen⟩ := shiftIn_of_shiftReady ⟨o, i, 1⟩ hready
    obtain ⟨r, rfl⟩ := hopen (by rw [ht]; rfl)
    exact exec_rise_tap_of_enter hf hshift (by rw [ht, forceReset_countOnes_of_lt hones]; rfl) (by rw [ht]; rfl)

/-- Settles O22: what a command that is not RISE writes, and the TAP state that the body of RISE leaves. -/
theorem onlyRisingEdgesMoveTap : Obligations.OnlyRisingEdgesMoveTap := by
  refine ⟨fun i s t h hi => ?_, fun s t k o i m hs ht h => ?_⟩
  · obtain ⟨p, f, hsim⟩ := exec_sim_of_not_rise h hi
    rw [hsim]
  · obtain ⟨st, evs, hbody, rfl⟩ := riseBody_of_exec_rise hs ht h
    obtain ⟨htap, _⟩ := riseBody_frame hbody
    exact htap.trans (forceReset_countOnes _ _ _)

/-- Settles O23: the reset value, what a command that is not RISE writes, and the count that the body of RISE leaves. -/
theorem onesCountsRisingOnes : Obligations.OnesCountsRisingOnes := by
  refine ⟨fun _ => rfl, fun i s t h hi => ?_, fun s t k o i m hs ht h => ?_⟩
  · obtain ⟨p, f, hsim⟩ := exec_sim_of_not_rise h hi
    rw [hsim]
  · obtain ⟨st, evs, hbody, rfl⟩ := riseBody_of_exec_rise hs ht h
    obtain ⟨_, hones, _⟩ := riseBody_frame hbody
    exact hones.trans (countOnes_eq _ _)

end Sys2Proof.Machine
end

section
/-! SUPPORT. The shift registers (41_shift_registers.md): the value of a bit sequence, the effect of entering each kind
of state, the registers that the invariant gives, RISE forward at a zero and at a one, and the statements about open,
pending and latched registers. -/

namespace Sys2Proof.Machine

/-! ### The value of a bit sequence -/

/-- The bits after the first weigh twice what they weigh on their own, so the recursion is the sum by weight. -/
theorem bitSeqVal_eq_sum (xs : BitSeq) :
    bitSeqVal xs = ((List.range xs.length).map fun i => (xs.getD i 0).val * 2 ^ i).sum := by
  induction xs with
  | nil => rfl
  | cons b rest ih =>
    have hweight (i : Nat) : ((b :: rest).getD (i + 1) 0).val * 2 ^ (i + 1) = 2 * ((rest.getD i 0).val * 2 ^ i) := by
      rw [List.getD_cons_succ]; ring
    simp only [List.length_cons, List.range_succ_eq_map, List.map_cons, List.map_map, Function.comp_def,
      Nat.succ_eq_add_one, hweight, List.sum_cons, List.sum_map_mul_left, ← ih]
    simp [bitSeqVal]

/-- Settles O12: the sum by induction on the sequence; the rest by evaluation. -/
theorem valueIsWeightedSum : Obligations.ValueIsWeightedSum :=
  ⟨bitSeqVal_eq_sum, rfl, rfl, fun _ => ⟨rfl, rfl⟩⟩

/-! ### Entering a state -/

section
variable {k : SeqIndex} {s0 s1 : TapState} {kind : Kind} {st : SimState}

/-- Entering Capture-xR opens a register (41_shift_registers.md R130). -/
theorem enter_capture (hc : isCapture s1 = true) (hk : kindOf s1 = some kind) :
    enter k s0 s1 st = .ok (openRegister kind st, []) := by
  simp [enter, hk, hc]

/-- Entering Exit1-xR seals the open register, if there is one (41_shift_registers.md R133, R134). -/
theorem enter_exit1 {r : ShiftRegister} (h0 : (isShift s0 || isCapture s0) = true) (hx : isExit1 s1 = true)
    (hr : st.openReg = some r) :
    enter k s0 s1 st = .ok ((st.setPending (some r)).setOpen none, [.sealed k r]) := by
  cases s1 <;> simp_all [enter, kindOf, isCapture, isExit1, sealOpen]

/-- Entering Shift-xR from Exit2-xR opens a new segment (41_shift_registers.md R135). -/
theorem enter_resume (h0 : isExit2 s0 = true) (hs : isShift s1 = true) (hk : kindOf s1 = some kind) :
    enter k s0 s1 st = .ok (resumeShift kind st, []) := by
  cases s1 <;> simp_all [enter, isCapture, isExit1, isShift]

/-- Entering Update-xR latches the pending register, if there is one (41_shift_registers.md R136). -/
theorem enter_update {r : ShiftRegister} (hu : isUpdate s1 = true) (hk : kindOf s1 = some kind)
    (hr : st.pending = some r) :
    enter k s0 s1 st = .ok ((st.setLatched kind (some r)).setPending none, [.latched k kind r]) := by
  cases s1 <;> simp_all [enter, isCapture, isExit1, isShift, isUpdate, latch]

end

/-! ### The bit a shift appends -/

/-- Outside Shift-xR nothing is shifted (41_shift_registers.md R131). -/
theorem shiftIn_of_not_shift {phase : SamplePhase} {p : Pins} {st : SimState} (h : isShift st.tap = false) :
    shiftIn phase p st = .ok st := by
  simp [shiftIn, h]

/-- In Shift-xR the open register takes the bits sampled at the run's phase (41_shift_registers.md R132). -/
theorem shiftIn_of_sampled {phase : SamplePhase} {o i m bo bi : Bit} {st : SimState} {r : ShiftRegister}
    (hs : isShift st.tap = true) (hr : st.openReg = some r)
    (hb : phase = .onEdge ∧ (bo, bi) = (o, i) ∨ phase = .beforeEdge ∧ st.prev = some (bo, bi)) :
    shiftIn phase ⟨o, i, m⟩ st = .ok (st.setOpen (some (appendBits r (bo, bi)))) := by
  have hbits : shiftBits phase st.prev ⟨o, i, m⟩ = .ok (bo, bi) := by
    rcases hb with ⟨rfl, hb⟩ | ⟨rfl, hb⟩ <;> rw [hb] <;> rfl
  simp [shiftIn, hs, hbits, hr]

/-! ### What the invariant gives -/

/-- Four ones in a row, or five, put the next one in Test-Logic-Reset wherever they began (40_tap_controller.md
R112). -/
theorem SimState.Inv.nextTap_one_eq_tlr {st : SimState} (h : st.Inv) (hones : 4 ≤ st.ones) :
    nextTap st.tap 1 = .tlr := by
  obtain ⟨s, hwalk⟩ := h.ones_walk
  have hrange : st.ones ≤ 5 := h.ones_range
  obtain hn | hn : st.ones = 4 ∨ st.ones = 5 := by omega
  all_goals rw [hwalk, hn]; cases s <;> rfl

/-- So where a one leads elsewhere, fewer than four have been counted. -/
theorem SimState.Inv.ones_lt_four {st : SimState} (h : st.Inv) (hnext : nextTap st.tap 1 ≠ .tlr) : st.ones < 4 := by
  by_contra hones
  exact hnext (h.nextTap_one_eq_tlr (by omega))

/-- In Capture-xR the empty register of the state's kind is open. -/
theorem SimState.Inv.openReg_of_capture {st : SimState} {kind : Kind} (h : st.Inv) (hc : isCapture st.tap = true)
    (hk : kindOf st.tap = some kind) : st.openReg = some (emptyRegister kind) := by
  obtain ⟨r, hr⟩ := Option.isSome_iff_exists.1 (h.open_iff.trans (by simp [holdsOpen, hc]))
  have hkind : kind = r.kind := Option.some.inj (hk.symm.trans (h.open_kind r hr))
  rw [hr, hkind, ← h.capture_empty hc r hr]

/-- From Exit1-xR to Exit2-xR a register of the state's kind is pending. -/
theorem SimState.Inv.pending_of_holdsPending {st : SimState} {kind : Kind} (h : st.Inv)
    (hp : holdsPending st.tap = true) (hk : kindOf st.tap = some kind) :
    ∃ r, st.pending = some r ∧ r.kind = kind := by
  obtain ⟨r, hr⟩ := Option.isSome_iff_exists.1 (h.pending_iff.trans hp)
  exact ⟨r, hr, Option.some.inj ((h.pending_kind r hr).symm.trans hk)⟩

/-! ### RISE at a zero and at a one -/

section
variable {s : State} {k : SeqIndex} {o i : Bit} {a b : TapState} {shifted entered : SimState} {evs : List Event}

/-- A zero outside Shift-xR: the graph's successor is entered with nothing shifted and no ones counted. -/
theorem exec_rise_zero_of_enter (hf : s.sim.fault = none) (ht : s.sim.tap = a) (hns : isShift a = false)
    (hnext : nextTap a 0 = b) (henter : enter k a b (s.sim.setOnes 0) = .ok (entered, evs)) :
    exec (.rise (bitOperands k o i 0)) s =
      .next ((s.setSim (recordPrev ⟨o, i, 0⟩ (entered.setTap b))).emit (.transition k a b :: evs)) := by
  subst ht
  exact exec_rise_of_enter hf (shiftIn_of_not_shift hns) (by simpa using hnext) henter

/-- A one with fewer than four before it: the graph's successor is entered after the shift, with one more counted. -/
theorem exec_rise_one_of_enter (hf : s.sim.fault = none) (ht : s.sim.tap = a) (hones : s.sim.ones < 4)
    (hshift : shiftIn s.cfg.samplePhase ⟨o, i, 1⟩ s.sim = .ok shifted) (hnext : nextTap a 1 = b)
    (henter : enter k a b (shifted.setOnes (s.sim.ones + 1)) = .ok (entered, evs)) :
    exec (.rise (bitOperands k o i 1)) s =
      .next ((s.setSim (recordPrev ⟨o, i, 1⟩ (entered.setTap b))).emit (.transition k a b :: evs)) := by
  subst ht
  have hcount : countOnes s.sim.ones 1 = s.sim.ones + 1 := by
    rw [countOnes_eq]; simp; omega
  exact exec_rise_of_enter hf hshift (by rw [forceReset_countOnes_of_lt hones, hnext]) (by rw [hcount, henter])

end

/-- The states from which a one leads to Update-xR hold a pending register of its kind. -/
theorem holdsPending_of_nextTap_update {a : TapState} (hu : isUpdate (nextTap a 1) = true) :
    holdsPending a = true ∧ isShift a = false ∧ kindOf a = kindOf (nextTap a 1) := by
  revert hu; cases a <;> decide

/-- Entering Update-xR, for both kinds (41_shift_registers.md R136). -/
theorem exec_rise_into_update {s : State} {k : SeqIndex} {o i : Bit} {upd : TapState} {kind : Kind}
    (hinv : s.sim.Inv) (hf : s.sim.fault = none) (hnext : nextTap s.sim.tap 1 = upd) (hu : isUpdate upd = true)
    (hk : kindOf upd = some kind) :
    ∃ r, s.sim.pending = some r ∧ r.kind = kind ∧
      exec (.rise (bitOperands k o i 1)) s =
        .next ((s.setSim (recordPrev ⟨o, i, 1⟩
            ((((s.sim.setOnes (s.sim.ones + 1)).setLatched kind (some r)).setPending none).setTap upd))).emit
          [.transition k s.sim.tap upd, .latched k kind r]) := by
  obtain ⟨hp, hns, hkind⟩ := holdsPending_of_nextTap_update (hnext ▸ hu)
  have hones : s.sim.ones < 4 := hinv.ones_lt_four (by rw [hnext]; rintro rfl; cases hu)
  obtain ⟨r, hr, hrk⟩ := hinv.pending_of_holdsPending hp (by rw [hkind, hnext, hk])
  exact ⟨r, hr, hrk, exec_rise_one_of_enter hf rfl hones (shiftIn_of_not_shift hns) hnext (enter_update hu hk hr)⟩

/-! ### The statements -/

/-- Settles O30: the shift, then the seal of the register it leaves open. -/
theorem exitSealsRegister : Obligations.ExitSealsRegister := by
  intro s k o i bo bi r sh ex hf hrow ht hr hones hbits q
  obtain ⟨hs, hx, hnext⟩ : isShift sh = true ∧ isExit1 ex = true ∧ nextTap sh 1 = ex := by
    rcases hrow with h | h <;> cases h <;> exact ⟨rfl, rfl, rfl⟩
  exact exec_rise_one_of_enter hf ht hones (shiftIn_of_sampled (ht ▸ hs) hr hbits) hnext
    (enter_exit1 (by simp [hs]) hx rfl)

/-- Settles O31: the invariant has the empty register open, and fewer than four ones counted. -/
theorem captureToExitSealsEmpty : Obligations.CaptureToExitSealsEmpty := by
  intro s k o i cap ex kind hinv hf hrow ht q
  obtain ⟨hc, hk, hns, hx, hnext⟩ : isCapture cap = true ∧ kindOf cap = some kind ∧ isShift cap = false ∧
      isExit1 ex = true ∧ nextTap cap 1 = ex := by
    rcases hrow with h | h <;> cases h <;> exact ⟨rfl, rfl, rfl, rfl, rfl⟩
  have hones : s.sim.ones < 4 := hinv.ones_lt_four (by rw [ht, hnext]; rintro rfl; cases hx)
  have hopen : s.sim.openReg = some q := hinv.openReg_of_capture (ht ▸ hc) (ht ▸ hk)
  exact exec_rise_one_of_enter hf ht hones (shiftIn_of_not_shift (ht ▸ hns)) hnext
    (enter_exit1 (by simp [hc]) hx hopen)

/-- Settles O33: Exit1-xR and Exit2-xR lead to the Update-xR of their kind. -/
theorem updateLatchesPending : Obligations.UpdateLatchesPending := by
  intro s k o i hinv hf
  refine ⟨fun ht => exec_rise_into_update hinv hf ?_ rfl rfl, fun ht => exec_rise_into_update hinv hf ?_ rfl rfl⟩
  all_goals rcases ht with ht | ht <;> rw [ht] <;> rfl

/-- Settles O27, by the entry into Capture-xR. -/
theorem captureOpensEmptyRegister : Obligations.CaptureOpensEmptyRegister := by
  intro s k o i sel cap kind hf hrow ht
  obtain ⟨hns, hnext, hc, hk⟩ : isShift sel = false ∧ nextTap sel 0 = cap ∧ isCapture cap = true ∧
      kindOf cap = some kind := by
    rcases hrow with h | h <;> cases h <;> exact ⟨rfl, rfl, rfl, rfl⟩
  exact exec_rise_zero_of_enter hf ht hns hnext (enter_capture hc hk)

/-- Settles O32, by the entry into Shift-xR from Exit2-xR. -/
theorem resumeOpensNewSegment : Obligations.ResumeOpensNewSegment := by
  intro s k o i ex sh kind hf hrow ht
  obtain ⟨hx, hns, hnext, hs, hk⟩ : isExit2 ex = true ∧ isShift ex = false ∧ nextTap ex 0 = sh ∧
      isShift sh = true ∧ kindOf sh = some kind := by
    rcases hrow with h | h <;> cases h <;> exact ⟨rfl, rfl, rfl, rfl, rfl⟩
  exact exec_rise_zero_of_enter hf ht hns hnext (enter_resume hx hs hk)

end Sys2Proof.Machine
end

section
/-! SUPPORT. What the commands share (42_commands.md R161 to R164): no effect after a fatal error, validation before
any effect, and the one effect of NONE and FALL. -/

namespace Sys2Proof.Machine

/-! ### Validation -/

/-- Validation names a field exactly when it is the first, in the order of R162, that holds no bit. -/
theorem validate_error_iff {c : Operands} {f : FieldName} :
    validate c = .error f ↔
      (1 < c.modeSelect ∧ f = .modeSelect) ∨
      (c.modeSelect ≤ 1 ∧ 1 < c.dataOut ∧ f = .dataOut) ∨
      (c.modeSelect ≤ 1 ∧ c.dataOut ≤ 1 ∧ 1 < c.dataIn ∧ f = .dataIn) := by
  refine ⟨validate_error_cases, ?_⟩
  rintro (⟨hm, rfl⟩ | ⟨hm, ho, rfl⟩ | ⟨hm, ho, hi, rfl⟩)
  · simp [validate, (pinBit_eq_none_iff _).2 hm]
  · simp [validate, pinBit, Nat.lt_succ_of_le hm, Nat.not_lt.2 ho]
  · simp [validate, pinBit, Nat.lt_succ_of_le hm, Nat.lt_succ_of_le ho, Nat.not_lt.2 hi]

theorem applyCommand_of_validate_error {c : Operands} {s : State} {f : FieldName}
    {body : Pins → Except Abort (SimState × List Event)} (hf : s.sim.fault = none) (hv : validate c = .error f) :
    applyCommand c s body = .next (raiseFatal s c.sequenceIndex f) := by
  simp [applyCommand, isFaulted, conclude, hf, hv]

/-- A command whose pins fail validation raises the fatal error that validation names; RESERVED alone is not
validated. -/
theorem exec_of_validate_error {i : Instr} {s : State} {f : FieldName} (hi : ∀ c, i ≠ .reserved c)
    (hf : s.sim.fault = none) (hv : validate i.operands = .error f) :
    exec i s = .next (raiseFatal s i.operands.sequenceIndex f) := by
  cases i with
  | noEdge c => exact applyCommand_of_validate_error hf hv
  | rise c => exact applyCommand_of_validate_error hf hv
  | fall c => exact applyCommand_of_validate_error hf hv
  | reserved c => exact absurd rfl (hi c)

/-- Settles O17: RESERVED is the error of the edge check; on every other command validation names the field. -/
theorem validationNamesFirstBadField : Obligations.ValidationNamesFirstBadField := by
  intro s c hf fatal
  refine ⟨exec_reserved_of_no_fault hf, fun i hi => ?_⟩
  have exec_fatal : ∀ f, validate c = .error f → exec i s = fatal f := by
    intro f hv
    rcases hi with rfl | rfl | rfl <;> exact exec_of_validate_error (by simp) hf hv
  exact ⟨fun hm => exec_fatal _ (validate_error_iff.2 (.inl ⟨hm, rfl⟩)),
    fun hm ho => exec_fatal _ (validate_error_iff.2 (.inr (.inl ⟨hm, ho, rfl⟩))),
    fun hm ho hi => exec_fatal _ (validate_error_iff.2 (.inr (.inr ⟨hm, ho, hi, rfl⟩)))⟩

/-! ### After a fatal error -/

/-- Settles O18: the check for a fatal error comes first in each command. -/
theorem faultedStateIgnoresCommands : Obligations.FaultedStateIgnoresCommands := by
  intro s i hs
  have hf : s.sim.fault.isSome = true := Option.isSome_iff_ne_none.2 hs
  cases i with
  | noEdge c => exact applyCommand_of_fault hf
  | rise c => exact applyCommand_of_fault hf
  | fall c => exact applyCommand_of_fault hf
  | reserved c => exact if_pos hf

/-! ### NONE and FALL -/

/-- NONE and FALL have the same meaning (42_commands.md R163, R164). -/
theorem exec_fall_eq_exec_noEdge (c : Operands) (s : State) : exec (.fall c) s = exec (.noEdge c) s := rfl

/-- NONE records the data bits and emits nothing. -/
theorem exec_noEdge_of_no_fault {s : State} {k : SeqIndex} {o i m : Bit} (hf : s.sim.fault = none) :
    exec (.noEdge (bitOperands k o i m)) s = .next (s.setSim (s.sim.setPrev (some (o, i)))) :=
  calc exec (.noEdge (bitOperands k o i m)) s
      = conclude s k (.ok (recordPrev ⟨o, i, m⟩ s.sim, [])) := applyCommand_of_bits hf
    _ = .next (s.setSim (s.sim.setPrev (some (o, i)))) := by
      simp [conclude, recordPrev, dataBits, State.emit, State.setSim]

/-- NONE with a pin field that holds no bit raises a fatal error. -/
theorem exec_noEdge_of_not_pinsOk {s : State} {c : Operands} (hf : s.sim.fault = none) (hc : c.pinsOk = false) :
    ∃ f, exec (.noEdge c) s = .next (raiseFatal s c.sequenceIndex f) :=
  (validate_of_not_pinsOk hc).imp fun _ hv => exec_of_validate_error (by simp) hf hv

/-- Settles O14: edge code 00 selects the row, and the effect is NONE's on good and on bad pins. -/
theorem noneWritesOnlyPrev : Obligations.NoneWritesOnlyPrev :=
  ⟨fun _ _ h => decodeWord_of_edge_none h, fun _ _ _ _ => rfl, fun _ hf =>
    ⟨fun _ _ _ _ => exec_noEdge_of_no_fault hf, fun _ hc => exec_noEdge_of_not_pinsOk hf hc⟩⟩

/-- Settles O15: edge code 10 selects the row, and FALL does what NONE does. -/
theorem fallWritesOnlyPrev : Obligations.FallWritesOnlyPrev := by
  refine ⟨fun _ _ h => decodeWord_of_edge_falling h, fun _ _ _ _ => rfl, fun s hf => ?_⟩
  simp only [exec_fall_eq_exec_noEdge]
  exact ⟨fun _ _ _ _ => exec_noEdge_of_no_fault hf, fun _ hc => exec_noEdge_of_not_pinsOk hf hc⟩

end Sys2Proof.Machine
end

section
/-! SUPPORT. The reset state (70_reset_and_hazards.md R200): one lemma per field of the record, and the record at the
start of a run. -/

namespace Sys2Proof.Machine

/-! ### The record at reset -/

@[simp] theorem SimState.reset_tap : SimState.reset.tap = .tlr := rfl
@[simp] theorem SimState.reset_openReg : SimState.reset.openReg = none := rfl
@[simp] theorem SimState.reset_pending : SimState.reset.pending = none := rfl
@[simp] theorem SimState.reset_latchedIr : SimState.reset.latchedIr = none := rfl
@[simp] theorem SimState.reset_latchedDr : SimState.reset.latchedDr = none := rfl
@[simp] theorem SimState.reset_ones : SimState.reset.ones = 0 := rfl
@[simp] theorem SimState.reset_prev : SimState.reset.prev = none := rfl
@[simp] theorem SimState.reset_fault : SimState.reset.fault = none := rfl

/-! ### The start of a run -/

@[simp] theorem State.resetWith_sim (p : SamplePhase) : (State.resetWith p).sim = SimState.reset := rfl
@[simp] theorem State.resetWith_cfg (p : SamplePhase) : (State.resetWith p).cfg = ⟨p⟩ := rfl

/-- The open phase of the model's reset has no part in the record. -/
@[simp] theorem State.reset_sim : State.reset.sim = SimState.reset := State.resetWith_sim Config.samplePhase

/-- Settles O13: every run starts from the one reset record, in either phase and in the model's reset, and each field
of that record has its value by the field's lemma. -/
theorem resetStateValues : Obligations.ResetStateValues := by
  refine ⟨fun p => ⟨State.resetWith_sim p, ?phase⟩, State.reset_sim, ?fields⟩
  case phase => simp only [State.resetWith_cfg]
  case fields =>
    exact ⟨SimState.reset_tap, SimState.reset_openReg, SimState.reset_pending, SimState.reset_latchedIr,
      SimState.reset_latchedDr, SimState.reset_ones, SimState.reset_prev, SimState.reset_fault⟩

end Sys2Proof.Machine
end

section
/-! SUPPORT. The encoder and the decoder against each other (30_encoding.md R66 to R69), the assembler (R73), and the
statements about words, stream entries and assembled statements. -/

namespace Sys2Proof

open Machine

/-! ### Validated operands -/

/-- Operands that validation passes are its pins. -/
theorem eq_bitOperands_of_validate {c : Operands} {p : Pins} (h : validate c = .ok p) :
    c = bitOperands c.sequenceIndex p.dataOut p.dataIn p.modeSelect := by
  obtain ⟨hm, ho, hi⟩ := (validate_ok_iff c p).1 h
  rw [bitOperands, ← hm, ← ho, ← hi]

/-- Operands in range are bits. -/
theorem eq_bitOperands_of_pinsOk {c : Operands} (h : c.pinsOk = true) :
    ∃ o i m : Bit, c = bitOperands c.sequenceIndex o i m := by
  obtain ⟨p, hp⟩ := validate_of_pinsOk h
  exact ⟨_, _, _, eq_bitOperands_of_validate hp⟩

/-! ### Words and commands -/

/-- The pin fields of a packed word are the bits that were packed, whatever index stands beside it. -/
theorem operandsOfWord_packWord (k j : SeqIndex) (o i m : Bit) (code : BitVec 2) :
    operandsOfWord k (packWord (bitOperands j o i m) code) = bitOperands k o i m := by
  have key : ∀ (o i m : Bit) (code : BitVec 2),
      let w : CmdWord := BitVec.ofNat 1 m.val ++ BitVec.ofNat 1 i.val ++ BitVec.ofNat 1 o.val ++ code
      bitAt w 2 = o.val ∧ bitAt w 3 = i.val ∧ bitAt w 4 = m.val := by decide
  obtain ⟨ho, hi, hm⟩ := key o i m code
  simp only [operandsOfWord, packWord, bitOperands, ho, hi, hm]

/-- The fields of a word, packed, are the word. -/
theorem packWord_operandsOfWord (k : SeqIndex) (w : CmdWord) : packWord (operandsOfWord k w) (edgeField w) = w := by
  have key : ∀ w : CmdWord, BitVec.ofNat 1 (bitAt w 4) ++ BitVec.ofNat 1 (bitAt w 3) ++ BitVec.ofNat 1 (bitAt w 2) ++
      edgeField w = w := by decide
  exact key w

/-- A bit of a word is in range. -/
theorem operandsOfWord_pinsOk (k : SeqIndex) (w : CmdWord) : (operandsOfWord k w).pinsOk = true := by
  simp [operandsOfWord, Operands.pinsOk, Operands.modeSelectOk, Operands.dataOutOk, Operands.dataInOk, bitAt,
    Bool.toNat_le]

/-- The decoder keeps both halves of a word: the edge field as the row, the pin bits as the operands. -/
theorem decodeWord_fields (k : SeqIndex) (w : CmdWord) :
    edgeCode (decodeWord k w) = edgeField w ∧ (decodeWord k w).operands = operandsOfWord k w := by
  rcases edgeField_cases w with h | h | h | h
  · rw [decodeWord_of_edge_none h, h]; exact ⟨rfl, rfl⟩
  · rw [decodeWord_of_edge_rising h, h]; exact ⟨rfl, rfl⟩
  · rw [decodeWord_of_edge_falling h, h]; exact ⟨rfl, rfl⟩
  · rw [decodeWord_of_edge_reserved h, h]; exact ⟨rfl, rfl⟩

/-- A word with the edge code and the operands of a command decodes to it. -/
theorem decodeWord_eq_of_fields {k : SeqIndex} {w : CmdWord} {i : Instr} (hedge : edgeField w = edgeCode i)
    (hops : operandsOfWord k w = i.operands) : decodeWord k w = i := by
  cases i with
  | noEdge c => rw [decodeWord_of_edge_none hedge, hops]; rfl
  | rise c => rw [decodeWord_of_edge_rising hedge, hops]; rfl
  | fall c => rw [decodeWord_of_edge_falling hedge, hops]; rfl
  | reserved c => rw [decodeWord_of_edge_reserved hedge, hops]; rfl

/-- The commands of words are well-formed (30_encoding.md R66). -/
theorem decodeWord_wf (k : SeqIndex) (w : CmdWord) : (decodeWord k w).wf = true := by
  rw [Instr.wf, (decodeWord_fields k w).2]
  exact operandsOfWord_pinsOk k w

/-- Settles O3: packing a well-formed command keeps its edge code and its bits; what a word decodes to is well-formed,
so no word decodes to an ill-formed command. -/
theorem decodeInvertsEncode : Obligations.DecodeInvertsEncode := by
  intro i
  refine ⟨fun hwf => ?wellFormed, fun hwf => ?illFormed⟩
  case wellFormed =>
    obtain ⟨o, n, m, hops⟩ := eq_bitOperands_of_pinsOk hwf
    refine ⟨packWord i.operands (edgeCode i), if_pos hwf, decodeWord_eq_of_fields ?_ ?_⟩
    · exact Laws.SelectsRow.edgeField_packWord _ _
    · rw [hops]; exact operandsOfWord_packWord _ _ _ _ _ _
  case illFormed =>
    refine ⟨by simp [encode, hwf], ?_⟩
    rintro k w rfl
    rw [decodeWord_wf] at hwf
    cases hwf

/-- Settles O4: the fields that the decoder keeps pack to the word again. -/
theorem encodeInvertsDecode : Obligations.EncodeInvertsDecode := by
  intro k w
  obtain ⟨hcode, hops⟩ := decodeWord_fields k w
  rw [encode, if_pos (decodeWord_wf k w), hcode, hops, packWord_operandsOfWord]

/-- Settles O1, by evaluating the decoder at each of the seven words. -/
theorem specWordsDecode : Obligations.SpecWordsDecode := by
  unfold Obligations.SpecWordsDecode
  decide

/-! ### Stream entries -/

/-- A word with or without an index (30_encoding.md R66). -/
theorem decodeInput_word (p : Nat) (seq : Option SeqIndex) (w : CmdWord) :
    decodeInput p (.word seq w) = decodeWord (seq.getD (indexAt p)) w := by
  cases seq <;> rfl

/-- Settles O5: `u64` holds the position of a word without an index; the other forms are decoded as they stand. -/
theorem streamEntryDecodes : Obligations.StreamEntryDecodes :=
  ⟨fun _ _ _ => rfl, fun p _ hp => ⟨indexAt p, indexAt_toNat hp, rfl⟩, fun _ _ _ _ _ => ⟨rfl, rfl, rfl⟩⟩

/-- A statement decodes to the command with the edge code of its operation and its bits. -/
theorem decodeInput_assemble {p : Nat} {t : Stmt} {i : Instr} (hcode : opCode t.op = edgeCode i)
    (hops : i.operands = bitOperands (t.seq.getD (indexAt p)) t.dataOut t.dataIn t.modeSelect) :
    decodeInput p (assemble t) = i := by
  rw [assemble, decodeInput_word]
  refine decodeWord_eq_of_fields ?_ ?_
  · rw [← hcode]; exact Laws.SelectsRow.edgeField_packWord _ _
  · rw [hops]; exact operandsOfWord_packWord _ 0#64 _ _ _ _

/-- Settles O10: each operation letter has the edge code of its row. -/
theorem statementAssemblesToItsCommand : Obligations.StatementAssemblesToItsCommand := by
  intro p t c
  refine ⟨fun h => ?_, fun h => ?_, fun h => ?_⟩
  all_goals exact decodeInput_assemble (by rw [h]; rfl) rfl

end Sys2Proof
end

section
/-! SUPPORT. The edges of a trace (30_encoding.md R63): they alternate; and the bytes and commands of the pin-level
statements (R74). -/

namespace Sys2Proof.Machine

/-! ### Alternation -/

/-- The edge that leads to a clock level. -/
def edgeTo (level : Bit) : Edge := if level = 0 then .falling else .rising

/-- A sample after another has no edge where the level stays, and the edge to its level where it changes. -/
theorem classifyEdge_some_cases (before now : Bit) :
    (before = now ∧ classifyEdge (some before) now = .noEdge) ∨
    (edgeTo before ≠ edgeTo now ∧ classifyEdge (some before) now = edgeTo now ∧ edgeTo now ≠ .noEdge) := by
  revert before now; decide

/-- The Rising and Falling edges of the samples from a position on, in order. -/
def clockEdges (before : Option Bit) (k : Nat) (bs : List Byte) : List Edge :=
  ((frontEndFrom before k bs).map FtdiCommand.clockEdge).filter fun e => e != .noEdge

theorem clockEdges_cons_of_noEdge {before : Option Bit} {k : Nat} {b : Byte} {rest : List Byte}
    (h : classifyEdge before (pinSample b).clock = .noEdge) :
    clockEdges before k (b :: rest) = clockEdges (some (pinSample b).clock) (k + 1) rest := by
  simp [clockEdges, frontEndFrom, commandOfSample, h]

theorem clockEdges_cons_of_edge {before : Option Bit} {k : Nat} {b : Byte} {rest : List Byte} {e : Edge}
    (h : classifyEdge before (pinSample b).clock = e) (he : e ≠ .noEdge) :
    clockEdges before k (b :: rest) = e :: clockEdges (some (pinSample b).clock) (k + 1) rest := by
  simp [clockEdges, frontEndFrom, commandOfSample, h, he]

/-- After a level, the edges alternate, beginning with the one that leaves it. -/
theorem isChain_edgeTo_cons_clockEdges (level : Bit) (k : Nat) (bs : List Byte) :
    List.IsChain (fun a b => a ≠ b) (edgeTo level :: clockEdges (some level) k bs) := by
  induction bs generalizing level k with
  | nil => exact .singleton _
  | cons b rest ih =>
    rcases classifyEdge_some_cases level (pinSample b).clock with ⟨hsame, hc⟩ | ⟨hne, hc, he⟩
    · rw [clockEdges_cons_of_noEdge hc, hsame]
      exact ih _ _
    · rw [clockEdges_cons_of_edge hc he]
      exact .cons_cons hne (ih _ _)

/-- Settles O8: the first sample has no edge and gives the level from which the edges alternate. -/
theorem frontEndAlternatesEdges : Obligations.FrontEndAlternatesEdges := by
  intro payloads
  change List.IsChain _ (clockEdges none 0 payloads.flatten)
  cases payloads.flatten with
  | nil => exact .nil
  | cons b rest =>
    rw [clockEdges_cons_of_noEdge (classifyEdge_none _)]
    exact (isChain_edgeTo_cons_clockEdges _ _ _).tail

/-! ### Pulses -/

/-- The two samples of a pulse: clock low, then clock high, with its bits (30_encoding.md R74). -/
theorem pinSample_pulseBytes (m o i : Bit) :
    (pulseBytes m o i).map pinSample = [⟨0, o, i, m⟩, ⟨1, o, i, m⟩] := by
  revert m o i; decide

/-- A low sample falls from a high level and has no edge otherwise. -/
theorem classifyEdge_zero (before : Option Bit) :
    classifyEdge before 0 = if before = some 1 then .falling else .noEdge := by
  revert before; decide

/-- A pulse before other bytes: NONE or FALL by the clock before it, then RISE, both with its bits. -/
theorem frontEndFrom_pulse_append (before : Option Bit) (k : Nat) (m o i : Bit) (rest : List Byte) :
    frontEndFrom before k (pulseBytes m o i ++ rest) =
      ⟨indexAt k, if before = some 1 then .falling else .noEdge, o.val, i.val, m.val⟩ ::
        ⟨indexAt (k + 1), .rising, o.val, i.val, m.val⟩ :: frontEndFrom (some 1) (k + 2) rest := by
  obtain ⟨hlow, hhigh⟩ : pinSample _ = (⟨0, o, i, m⟩ : PinSample) ∧ pinSample _ = (⟨1, o, i, m⟩ : PinSample) := by
    simpa [pulseBytes] using pinSample_pulseBytes m o i
  simp only [pulseBytes, List.cons_append, List.nil_append, frontEndFrom, hlow, hhigh, commandOfSample,
    classifyEdge_zero]
  rfl

/-- Settles O9: the bytes by evaluation; the commands from the two samples of a pulse. -/
theorem pulseGivesTwoCommands : Obligations.PulseGivesTwoCommands := by
  refine ⟨fun _ => rfl, rfl, rfl, ?bytes, fun before k m o i => ?commands⟩
  case bytes => unfold pinBytes; decide
  case commands =>
    have h := frontEndFrom_pulse_append before k m o i []
    rwa [List.append_nil] at h

end Sys2Proof.Machine
end

section
/-! SUPPORT. What a command leaves unchanged and what it may write (10_state.md R31), what it emits (42_commands.md
R166), and the statements about them. -/

namespace Sys2Proof.Machine

/-- No command touches the configuration, the stream or the position. -/
theorem exec_input_eq {i : Instr} {s t : State} (h : exec i s = .next t) :
    t.cfg = s.cfg ∧ t.stream = s.stream ∧ t.position = s.position := by
  rcases exec_cases h with ⟨rfl, _⟩ | ⟨_, f, rfl⟩ | ⟨_, p, st, evs, _, rfl, _⟩ <;> exact ⟨rfl, rfl, rfl⟩

/-- Settles O36, from what a command can do. -/
theorem commandsLeaveInputAlone : Obligations.CommandsLeaveInputAlone :=
  fun _ _ _ h => exec_input_eq h

/-! ### The latches -/

/-- Entering a state writes the latch of IR only in Update-IR and Test-Logic-Reset, that of DR only in Update-DR and
Test-Logic-Reset. -/
theorem enter_latches {k : SeqIndex} {s0 s1 : TapState} {st st' : SimState} {evs : List Event}
    (h : enter k s0 s1 st = .ok (st', evs)) :
    (st'.latchedIr = st.latchedIr ∨ s1 = .updIR ∨ s1 = .tlr) ∧
      (st'.latchedDr = st.latchedDr ∨ s1 = .updDR ∨ s1 = .tlr) := by
  rcases enter_cases h with ⟨ht, _⟩ | ⟨_, _, kind, _, rfl, _⟩ | ⟨_, _, r, _, rfl, _⟩ | ⟨_, _, kind, _, rfl, _⟩ |
    ⟨hu, kind, r, hk, _, rfl, _⟩ | ⟨_, _, _, _, _, rfl, _⟩
  · exact ⟨.inr (.inr ht), .inr (.inr ht)⟩
  · exact ⟨.inl rfl, .inl rfl⟩
  · exact ⟨.inl rfl, .inl rfl⟩
  · exact ⟨.inl rfl, .inl rfl⟩
  · cases kind with
    | ir =>
      have hs1 : s1 = .updIR := by cases s1 <;> simp_all [isUpdate, kindOf]
      exact ⟨.inr (.inl hs1), .inl rfl⟩
    | dr =>
      have hs1 : s1 = .updDR := by cases s1 <;> simp_all [isUpdate, kindOf]
      exact ⟨.inl rfl, .inr (.inl hs1)⟩
  · exact ⟨.inl rfl, .inl rfl⟩

/-- So does the body of RISE, the shift before it writing `open` only. -/
theorem riseBody_latches {phase : SamplePhase} {k : SeqIndex} {p : Pins} {st st' : SimState} {evs : List Event}
    (h : riseBody phase k p st = .ok (st', evs)) :
    (st'.latchedIr = st.latchedIr ∨ st'.tap = .updIR ∨ st'.tap = .tlr) ∧
      (st'.latchedDr = st.latchedDr ∨ st'.tap = .updDR ∨ st'.tap = .tlr) := by
  obtain ⟨shifted, entered, evs', hs, he, rfl, _⟩ := riseBody_cases h
  rw [shiftIn_frame hs] at he
  simpa [recordPrev] using enter_latches he

/-- Settles O35: what a command that is not RISE writes, and for the rest what the command did. -/
theorem writerTableHolds : Obligations.WriterTableHolds := by
  intro i s t h
  refine ⟨exec_sim_of_not_rise h, ?_⟩
  rcases exec_cases h with ⟨rfl, _⟩ | ⟨_, f, rfl⟩ | ⟨_, p, st, evs, _, rfl, ⟨rfl, _, _⟩ | ⟨c, _, hbody⟩⟩
  · exact ⟨fun hne => absurd rfl hne, fun hne => absurd rfl hne, fun hne => absurd rfl hne⟩
  · exact ⟨fun hne => absurd rfl hne, fun hne => absurd rfl hne, fun _ => ⟨f, rfl⟩⟩
  · exact ⟨fun hne => absurd rfl hne, fun hne => absurd rfl hne, fun hne => absurd rfl hne⟩
  · obtain ⟨hir, hdr⟩ := riseBody_latches hbody
    obtain ⟨_, _, _, hfault⟩ := riseBody_frame hbody
    exact ⟨hir.resolve_left, hdr.resolve_left, fun hne => absurd hfault hne⟩

/-! ### The events -/

/-- What entering a state emits: nothing, the register it seals, or the register it latches (41_shift_registers.md
R144). -/
theorem enter_events {k : SeqIndex} {s0 s1 : TapState} {st st' : SimState} {evs : List Event}
    (h : enter k s0 s1 st = .ok (st', evs)) :
    evs = [] ∨ (∃ r, st'.pending = some r ∧ evs = [.sealed k r]) ∨
      ∃ kind r, st.pending = some r ∧ kindOf s1 = some kind ∧ evs = [.latched k kind r] := by
  rcases enter_cases h with ⟨_, _, hev⟩ | ⟨_, _, _, _, _, hev⟩ | ⟨_, _, r, _, rfl, hev⟩ | ⟨_, _, _, _, _, hev⟩ |
    ⟨_, kind, r, hk, hr, _, hev⟩ | ⟨_, _, _, _, _, _, hev⟩
  · exact .inl hev
  · exact .inl hev
  · exact .inr (.inl ⟨r, rfl, hev⟩)
  · exact .inl hev
  · exact .inr (.inr ⟨kind, r, hr, hk, hev⟩)
  · exact .inl hev

/-- The body of RISE emits its Transition first, then what entering the new state does. -/
theorem riseBody_events {phase : SamplePhase} {k : SeqIndex} {p : Pins} {st st' : SimState} {evs : List Event}
    (h : riseBody phase k p st = .ok (st', evs)) :
    ∃ evs', evs = .transition k st.tap st'.tap :: evs' ∧
      (evs' = [] ∨ (∃ r, st'.pending = some r ∧ evs' = [.sealed k r]) ∨
        ∃ kind r, st.pending = some r ∧ kindOf st'.tap = some kind ∧ evs' = [.latched k kind r]) := by
  obtain ⟨shifted, entered, evs', hs, he, rfl, rfl⟩ := riseBody_cases h
  rw [shiftIn_frame hs] at he
  exact ⟨evs', rfl, by simpa [recordPrev] using enter_events he⟩

/-- Settles O37: only the body of RISE emits, and it leaves `fault`. -/
theorem stepEmitsTransitionFirst : Obligations.StepEmitsTransitionFirst := by
  intro i s t h
  rcases exec_cases h with ⟨rfl, hf⟩ | ⟨_, f, rfl⟩ | ⟨hf, p, st, evs, _, rfl, ⟨_, rfl, hi⟩ | ⟨c, rfl, hbody⟩⟩
  · exact ⟨fun _ => rfl, fun _ _ hn => absurd hn hf⟩
  · exact ⟨fun _ => rfl, fun _ _ hn => by cases hn⟩
  · exact ⟨fun _ => List.append_nil _, fun c hc => absurd hc (hi c)⟩
  · obtain ⟨_, _, _, hfault⟩ := riseBody_frame hbody
    refine ⟨fun hquiet => ?_, fun c' hc' _ => ?_⟩
    · rcases hquiet with hi | hn
      · exact absurd rfl (hi c)
      · exact absurd (hfault.trans hf) hn
    · obtain rfl : c = c' := by simpa using hc'
      obtain ⟨evs', rfl, rfl | ⟨r, hr, rfl⟩ | ⟨kind, r, hr, hk, rfl⟩⟩ := riseBody_events hbody
      · exact .inl rfl
      · exact .inr (.inl ⟨r, hr, rfl⟩)
      · exact .inr (.inr ⟨kind, r, hr, hk, rfl⟩)

/-! ### NONE and FALL twice -/

/-- NONE records the same bits again, or does nothing after the error it raised. -/
theorem exec_noEdge_twice {c : Operands} {s t u : State} (h : exec (.noEdge c) s = .next t)
    (h' : exec (.noEdge c) t = .next u) : u.sim = t.sim := by
  have same_of_fault (hf : t.sim.fault ≠ none) : u.sim = t.sim := by
    rw [faultedStateIgnoresCommands t _ hf, Host.Outcome.next.injEq] at h'
    rw [h']
  by_cases hf : s.sim.fault = none
  · cases hc : c.pinsOk with
    | false =>
      obtain ⟨f, hraise⟩ := exec_noEdge_of_not_pinsOk hf hc
      obtain rfl : raiseFatal s c.sequenceIndex f = t := by simpa [hraise] using h
      exact same_of_fault (by simp)
    | true =>
      obtain ⟨o, n, m, hbits⟩ := eq_bitOperands_of_pinsOk hc
      rw [hbits, exec_noEdge_of_no_fault hf, Host.Outcome.next.injEq] at h
      subst h
      rw [hbits, exec_noEdge_of_no_fault (by simpa using hf), Host.Outcome.next.injEq] at h'
      subst h'
      rfl
  · obtain rfl : s = t := by simpa [faultedStateIgnoresCommands s _ hf] using h
    exact same_of_fault hf

/-- Settles O38: FALL does what NONE does. -/
theorem passiveCommandsAreIdempotent : Obligations.PassiveCommandsAreIdempotent := by
  rintro i s t u (⟨c, rfl⟩ | ⟨c, rfl⟩) h h'
  · exact exec_noEdge_twice h h'
  · rw [exec_fall_eq_exec_noEdge] at h h'
    exact exec_noEdge_twice h h'

end Sys2Proof.Machine
end

section
/-! SUPPORT. The invariant (95_test_vectors.md section 4): that it holds at reset, that no RISE sticks in it, that
every command keeps it, and the statements about RISE and the step from its states. -/

namespace Sys2Proof.Machine

/-! ### The registers of a TAP state -/

/-- The register clauses of the invariant, for a record that is in, or about to enter, TAP state `a`. -/
structure RegistersFit (a : TapState) (st : SimState) : Prop where
  open_iff : st.openReg.isSome = holdsOpen a
  open_whole : ∀ r, st.openReg = some r → kindOf a = some r.kind ∧ lengthsAgree r
  capture_empty : isCapture a = true → ∀ r, st.openReg = some r → r = emptyRegister r.kind
  pending_iff : st.pending.isSome = holdsPending a
  pending_whole : ∀ r, st.pending = some r → kindOf a = some r.kind ∧ lengthsAgree r
  latchedIr_whole : ∀ r, st.latchedIr = some r → r.kind = .ir ∧ lengthsAgree r
  latchedDr_whole : ∀ r, st.latchedDr = some r → r.kind = .dr ∧ lengthsAgree r

theorem SimState.Inv.registersFit {st : SimState} (h : st.Inv) : RegistersFit st.tap st where
  open_iff := h.open_iff
  open_whole r hr := ⟨h.open_kind r hr, h.open_lengths r hr⟩
  capture_empty := h.capture_empty
  pending_iff := h.pending_iff
  pending_whole r hr := ⟨h.pending_kind r hr, h.pending_lengths r hr⟩
  latchedIr_whole r hr := ⟨h.latchedIr_kind r hr, h.latchedIr_lengths r hr⟩
  latchedDr_whole r hr := ⟨h.latchedDr_kind r hr, h.latchedDr_lengths r hr⟩

/-- The invariant from its register clauses and its clauses on `ones` and `prev`. -/
theorem RegistersFit.inv {st : SimState} (h : RegistersFit st.tap st) (hrange : st.ones ≤ Config.resetOnes)
    (hwalk : ∃ a, st.tap = onesWalk st.ones a)
    (hprev : st.prev = none → st.tap = .tlr ∧ st.ones = 0 ∧ st.latchedIr = none ∧ st.latchedDr = none) : st.Inv where
  open_iff := h.open_iff
  open_kind r hr := (h.open_whole r hr).1
  capture_empty := h.capture_empty
  pending_iff := h.pending_iff
  pending_kind r hr := (h.pending_whole r hr).1
  latchedIr_kind r hr := (h.latchedIr_whole r hr).1
  latchedDr_kind r hr := (h.latchedDr_whole r hr).1
  open_lengths r hr := (h.open_whole r hr).2
  pending_lengths r hr := (h.pending_whole r hr).2
  latchedIr_lengths r hr := (h.latchedIr_whole r hr).2
  latchedDr_lengths r hr := (h.latchedDr_whole r hr).2
  ones_range := hrange
  ones_walk := hwalk
  prev_none := hprev

/-- The clauses see the four registers only. -/
theorem RegistersFit.of_eq {a : TapState} {st st' : SimState} (h : RegistersFit a st)
    (hopen : st'.openReg = st.openReg) (hpending : st'.pending = st.pending)
    (hir : st'.latchedIr = st.latchedIr) (hdr : st'.latchedDr = st.latchedDr) : RegistersFit a st' where
  open_iff := hopen ▸ h.open_iff
  open_whole := hopen ▸ h.open_whole
  capture_empty := hopen ▸ h.capture_empty
  pending_iff := hpending ▸ h.pending_iff
  pending_whole := hpending ▸ h.pending_whole
  latchedIr_whole := hir ▸ h.latchedIr_whole
  latchedDr_whole := hdr ▸ h.latchedDr_whole

/-- A record with no register at all fits a TAP state that holds none. -/
theorem registersFit_of_none {a : TapState} {st : SimState} (hopen : st.openReg = none) (hpending : st.pending = none)
    (hir : st.latchedIr = none) (hdr : st.latchedDr = none) (ho : holdsOpen a = false)
    (hp : holdsPending a = false) : RegistersFit a st := by
  constructor <;> simp [hopen, hpending, hir, hdr, ho, hp]

/-- The invariant holds of the reset record. -/
theorem SimState.reset_inv : SimState.reset.Inv :=
  (registersFit_of_none rfl rfl rfl rfl rfl rfl).inv (Nat.zero_le _) ⟨.tlr, rfl⟩ fun _ => ⟨rfl, rfl, rfl, rfl⟩

/-- The fault has no part in the invariant. -/
theorem SimState.Inv.setFault {st : SimState} (h : st.Inv) (f : Option FatalRecord) : (st.setFault f).Inv :=
  RegistersFit.inv (st := st.setFault f) (h.registersFit.of_eq rfl rfl rfl rfl) h.ones_range h.ones_walk h.prev_none

/-- Data bits may be recorded in every state. -/
theorem SimState.Inv.setPrev {st : SimState} (h : st.Inv) (b : Bit × Bit) : (st.setPrev (some b)).Inv :=
  RegistersFit.inv (st := st.setPrev (some b)) (h.registersFit.of_eq rfl rfl rfl rfl) h.ones_range h.ones_walk
    fun hn => by cases hn

/-! ### The counter against the graph -/

theorem onesWalk_succ (n : Nat) (a : TapState) : onesWalk (n + 1) a = nextTap (onesWalk n a) 1 := by
  induction n generalizing a with
  | zero => rfl
  | succ n ih => exact ih (nextTap a 1)

/-- Five ones lead to Test-Logic-Reset from everywhere (40_tap_controller.md R113). -/
theorem onesWalk_five (a : TapState) : onesWalk 5 a = .tlr := by
  cases a <;> rfl

/-- The history of ones goes along with the graph and the counter: a zero begins a new one, a one extends it, and at
five it stays in Test-Logic-Reset. -/
theorem exists_onesWalk_nextTap {n : Nat} {a : TapState} (hn : n ≤ Config.resetOnes) (h : ∃ b, a = onesWalk n b)
    (m : Bit) : ∃ b, nextTap a m = onesWalk (countOnes n m) b := by
  obtain ⟨b, rfl⟩ := h
  obtain rfl | rfl : m = 0 ∨ m = 1 := by revert m; decide
  · exact ⟨_, rfl⟩
  · rcases Nat.lt_or_eq_of_le hn with hlt | rfl
    · have hcount : countOnes n 1 = n + 1 := Nat.min_eq_left hlt
      exact ⟨b, by rw [hcount, onesWalk_succ]⟩
    · refine ⟨b, ?_⟩
      change nextTap (onesWalk 5 b) 1 = onesWalk 5 b
      rw [onesWalk_five]
      rfl

theorem countOnes_le (n : Nat) (m : Bit) : countOnes n m ≤ Config.resetOnes := by
  unfold countOnes
  split
  · exact Nat.min_le_right _ _
  · exact Nat.zero_le _

/-- In a state of the invariant the forced reset changes nothing (40_tap_controller.md R112). -/
theorem SimState.Inv.forceReset_nextTap {st : SimState} (h : st.Inv) (m : Bit) :
    forceReset (countOnes st.ones m) (nextTap st.tap m) = nextTap st.tap m := by
  rw [forceReset_countOnes]
  split
  · next hm => rw [hm.1, h.nextTap_one_eq_tlr hm.2]
  · rfl

/-- Settles O24, by the history of ones. -/
theorem forcedResetIsRedundant : Obligations.ForcedResetIsRedundant :=
  fun _ h hones => h.nextTap_one_eq_tlr hones

/-! ### The registers that an edge of the graph leaves -/

theorem lengthsAgree_emptyRegister (kind : Kind) : lengthsAgree (emptyRegister kind) := ⟨rfl, rfl⟩

theorem lengthsAgree_appendBits {r : ShiftRegister} (h : lengthsAgree r) (b : Bit × Bit) :
    lengthsAgree (appendBits r b) := by
  obtain ⟨hout, hin⟩ := h
  simp [lengthsAgree, appendBits, ← hout, ← hin]

section
variable {a b : TapState} {st st' : SimState}

theorem RegistersFit.openReg_eq_none (h : RegistersFit a st) (ho : holdsOpen a = false) : st.openReg = none := by
  simpa [ho] using h.open_iff

theorem RegistersFit.pending_eq_none (h : RegistersFit a st) (hp : holdsPending a = false) : st.pending = none := by
  simpa [hp] using h.pending_iff

/-- A state that holds what the one before it holds, and is no Capture-xR. -/
theorem RegistersFit.of_holds_eq (h : RegistersFit a st) (ho : holdsOpen b = holdsOpen a)
    (hp : holdsPending b = holdsPending a)
    (hk : holdsOpen a = true ∨ holdsPending a = true → kindOf b = kindOf a) (hc : isCapture b = false) :
    RegistersFit b st where
  open_iff := ho ▸ h.open_iff
  open_whole r hr := by
    rw [hk (.inl (by rw [← h.open_iff, hr]; rfl))]
    exact h.open_whole r hr
  capture_empty hcap := absurd hcap (by simp [hc])
  pending_iff := hp ▸ h.pending_iff
  pending_whole r hr := by
    rw [hk (.inr (by rw [← h.pending_iff, hr]; rfl))]
    exact h.pending_whole r hr
  latchedIr_whole := h.latchedIr_whole
  latchedDr_whole := h.latchedDr_whole

/-- A state that is entered with a new register, and nothing pending. -/
theorem RegistersFit.opened {kind : Kind} (h : RegistersFit a st) (hopen : st'.openReg = some (emptyRegister kind))
    (hpending : st'.pending = none) (hir : st'.latchedIr = st.latchedIr) (hdr : st'.latchedDr = st.latchedDr)
    (ho : holdsOpen b = true) (hp : holdsPending b = false) (hk : kindOf b = some kind) : RegistersFit b st' where
  open_iff := by rw [hopen, ho]; rfl
  open_whole r hr := by
    obtain rfl : emptyRegister kind = r := by simpa [hopen] using hr
    exact ⟨hk, lengthsAgree_emptyRegister kind⟩
  capture_empty _ r hr := by
    obtain rfl : emptyRegister kind = r := by simpa [hopen] using hr
    rfl
  pending_iff := by rw [hpending, hp]; rfl
  pending_whole := by simp [hpending]
  latchedIr_whole := hir ▸ h.latchedIr_whole
  latchedDr_whole := hdr ▸ h.latchedDr_whole

/-- A state that is entered with the open register sealed. -/
theorem RegistersFit.sealed {r : ShiftRegister} (h : RegistersFit a st) (hr : st.openReg = some r)
    (ho : holdsOpen b = false) (hp : holdsPending b = true) (hk : kindOf b = kindOf a) (hc : isCapture b = false) :
    RegistersFit b ((st.setPending (some r)).setOpen none) where
  open_iff := ho.symm
  open_whole := by simp
  capture_empty hcap := absurd hcap (by simp [hc])
  pending_iff := hp.symm
  pending_whole q hq := by
    obtain rfl : r = q := by simpa using hq
    exact hk ▸ h.open_whole r hr
  latchedIr_whole := h.latchedIr_whole
  latchedDr_whole := h.latchedDr_whole

/-- A state that is entered with the pending register latched, and nothing open. -/
theorem RegistersFit.latched {r : ShiftRegister} {kind : Kind} (h : RegistersFit a st) (hr : st.pending = some r)
    (hopen : st.openReg = none) (ho : holdsOpen b = false) (hp : holdsPending b = false)
    (hk : kindOf a = some kind) (hc : isCapture b = false) :
    RegistersFit b ((st.setLatched kind (some r)).setPending none) := by
  obtain ⟨hkind, hlen⟩ := h.pending_whole r hr
  have hrk : r.kind = kind := Option.some.inj (hkind.symm.trans hk)
  refine { open_iff := ?_, open_whole := ?_, capture_empty := ?_, pending_iff := ?_, pending_whole := ?_,
           latchedIr_whole := ?ir, latchedDr_whole := ?dr }
  case ir =>
    cases kind with
    | ir =>
      rintro q hq
      obtain rfl : r = q := by simpa using hq
      exact ⟨hrk, hlen⟩
    | dr => exact h.latchedIr_whole
  case dr =>
    cases kind with
    | ir => exact h.latchedDr_whole
    | dr =>
      rintro q hq
      obtain rfl : r = q := by simpa using hq
      exact ⟨hrk, hlen⟩
  all_goals simp [hopen, ho, hp, hc]

end

/-! ### The shift -/

/-- Shift-xR holds an open register and no pending one. -/
theorem holds_of_shift {a : TapState} (hs : isShift a = true) :
    holdsOpen a = true ∧ holdsPending a = false ∧ isCapture a = false := by
  revert hs; cases a <;> decide

/-- A shift appends to the open register, which stays open with its kind (41_shift_registers.md R131). -/
theorem RegistersFit.of_shiftIn {phase : SamplePhase} {p : Pins} {st st' : SimState} (h : RegistersFit st.tap st)
    (hs : shiftIn phase p st = .ok st') : RegistersFit st.tap st' := by
  rcases shiftIn_cases hs with ⟨_, rfl⟩ | ⟨htap, b, r, _, hr, rfl⟩
  · exact h
  · obtain ⟨ho, _, hc⟩ := holds_of_shift htap
    obtain ⟨hkind, hlen⟩ := h.open_whole r hr
    refine { h with open_iff := ho.symm, open_whole := ?_, capture_empty := fun hcap => absurd hcap (by simp [hc]) }
    rintro q hq
    obtain rfl : appendBits r b = q := by simpa using hq
    exact ⟨hkind, lengthsAgree_appendBits hlen b⟩

/-- In a state of the invariant the shift can take place: a register is open in Shift-xR, and a command was applied
before. -/
theorem shiftReady_of_inv {s : State} (h : s.sim.Inv) : ShiftReady s := by
  intro hs
  obtain ⟨ho, _⟩ := holds_of_shift hs
  refine ⟨h.open_iff.trans ho, .inr ?_⟩
  rw [Option.isSome_iff_ne_none]
  intro hn
  rw [(h.prev_none hn).1] at hs
  cases hs

/-! ### Entering a state -/

/-- Capture-xR is entered from a state that holds nothing pending. -/
theorem holds_of_nextTap_capture {a : TapState} {m : Bit} (hc : isCapture (nextTap a m) = true) :
    holdsOpen (nextTap a m) = true ∧ holdsPending (nextTap a m) = false ∧ holdsPending a = false := by
  revert hc; revert m; cases a <;> decide

/-- Exit1-xR is entered from the Capture-xR or Shift-xR of its kind, where a register is open. -/
theorem holds_of_nextTap_exit1 {a : TapState} {m : Bit} (hx : isExit1 (nextTap a m) = true) :
    holdsOpen (nextTap a m) = false ∧ holdsPending (nextTap a m) = true ∧ kindOf (nextTap a m) = kindOf a ∧
      isCapture (nextTap a m) = false ∧ holdsOpen a = true ∧ (isShift a || isCapture a) = true := by
  revert hx; revert m; cases a <;> decide

/-- Update-xR is entered from the Exit1-xR or Exit2-xR of its kind, where a register is pending and none open. -/
theorem holds_of_nextTap_update {a : TapState} {m : Bit} (hu : isUpdate (nextTap a m) = true) :
    holdsOpen (nextTap a m) = false ∧ holdsPending (nextTap a m) = false ∧ kindOf (nextTap a m) = kindOf a ∧
      isCapture (nextTap a m) = false ∧ holdsOpen a = false ∧ holdsPending a = true := by
  revert hu; revert m; cases a <;> decide

/-- On an edge that touches no register, both states hold the same. -/
theorem holds_of_nextTap_untouched {a : TapState} {m : Bit} (ht : nextTap a m ≠ .tlr)
    (hc : isCapture (nextTap a m) = false) (hx : ((isShift a || isCapture a) && isExit1 (nextTap a m)) = false)
    (hr : (isExit2 a && isShift (nextTap a m)) = false) (hu : isUpdate (nextTap a m) = false) :
    holdsOpen (nextTap a m) = holdsOpen a ∧ holdsPending (nextTap a m) = holdsPending a ∧
      (holdsOpen a = true ∨ holdsPending a = true → kindOf (nextTap a m) = kindOf a) := by
  revert ht hc hx hr hu; revert m; cases a <;> decide

/-- A state that has a kind and is none of Capture-xR, entered Exit1-xR, resumed Shift-xR and Update-xR, or has none
and is not Test-Logic-Reset, is entered without effect (41_shift_registers.md R143). -/
theorem enter_untouched {k : SeqIndex} {a b : TapState} {st : SimState} (ht : b ≠ .tlr) (hc : isCapture b = false)
    (hx : ((isShift a || isCapture a) && isExit1 b) = false) (hr : (isExit2 a && isShift b) = false)
    (hu : isUpdate b = false) : enter k a b st = .ok (st, []) := by
  cases hk : kindOf b <;> simp [enter, hk, ht, hc, hx, hr, hu]

/-- The states that an effect names by their class have a kind. -/
theorem exists_kindOf {b : TapState} (h : (isCapture b || isShift b || isUpdate b) = true) :
    ∃ kind, kindOf b = some kind := by
  exact Option.isSome_iff_exists.1 (by revert h; cases b <;> decide)

section
variable {k : SeqIndex} {a : TapState} {m : Bit} {st st' : SimState} {evs : List Event}

/-- Entering the graph's successor of a state whose registers fit never sticks: an open register is there to seal, and
a pending one to latch. -/
theorem RegistersFit.enter_ok (h : RegistersFit a st) (k : SeqIndex) (m : Bit) :
    ∃ st' evs, enter k a (nextTap a m) st = .ok (st', evs) := by
  by_cases ht : nextTap a m = .tlr
  · exact ⟨_, _, by rw [ht]; rfl⟩
  by_cases hc : isCapture (nextTap a m) = true
  · obtain ⟨kind, hk⟩ := exists_kindOf (b := nextTap a m) (by simp [hc])
    exact ⟨_, _, enter_capture hc hk⟩
  by_cases hx : isExit1 (nextTap a m) = true
  · obtain ⟨_, _, _, _, ho, hfrom⟩ := holds_of_nextTap_exit1 hx
    obtain ⟨r, hr⟩ := Option.isSome_iff_exists.1 (h.open_iff.trans ho)
    exact ⟨_, _, enter_exit1 hfrom hx hr⟩
  by_cases hr : isExit2 a = true ∧ isShift (nextTap a m) = true
  · obtain ⟨kind, hk⟩ := exists_kindOf (b := nextTap a m) (by simp [hr.2])
    exact ⟨_, _, enter_resume hr.1 hr.2 hk⟩
  by_cases hu : isUpdate (nextTap a m) = true
  · obtain ⟨kind, hk⟩ := exists_kindOf (b := nextTap a m) (by simp [hu])
    obtain ⟨_, _, _, _, _, hp⟩ := holds_of_nextTap_update hu
    obtain ⟨r, hr⟩ := Option.isSome_iff_exists.1 (h.pending_iff.trans hp)
    exact ⟨_, _, enter_update hu hk hr⟩
  · exact ⟨_, _, enter_untouched ht (by simpa using hc) (by simp [hx]) (by simpa using hr) (by simpa using hu)⟩

/-- Entering the graph's successor leaves the registers that the new state asks for. -/
theorem RegistersFit.of_enter (h : RegistersFit a st) (he : enter k a (nextTap a m) st = .ok (st', evs)) :
    RegistersFit (nextTap a m) st' := by
  rcases enter_cases he with ⟨ht, rfl, _⟩ | ⟨_, hc, kind, hk, rfl, _⟩ | ⟨hx, _, r, hr, rfl, _⟩ |
    ⟨_, hs, kind, hk, rfl, _⟩ | ⟨hu, kind, r, hk, hr, rfl, _⟩ | ⟨ht, hc, hx, hr, hu, rfl, _⟩
  · rw [ht]
    exact registersFit_of_none rfl rfl rfl rfl rfl rfl
  · obtain ⟨ho, hp, hpa⟩ := holds_of_nextTap_capture hc
    exact h.opened rfl (h.pending_eq_none hpa) rfl rfl ho hp hk
  · obtain ⟨ho, hp, hkind, hc, _⟩ := holds_of_nextTap_exit1 hx
    exact h.sealed hr ho hp hkind hc
  · obtain ⟨ho, hp, _⟩ := holds_of_shift hs
    exact h.opened rfl rfl rfl rfl ho hp hk
  · obtain ⟨ho, hp, hkind, hc, hoa, _⟩ := holds_of_nextTap_update hu
    exact h.latched hr (h.openReg_eq_none hoa) ho hp (hkind ▸ hk) hc
  · obtain ⟨ho, hp, hkind⟩ := holds_of_nextTap_untouched ht hc hx hr hu
    exact h.of_holds_eq ho hp hkind hc

end

/-! ### The events -/

/-- What the invariant says of an event: the register in it is whole. -/
def Event.Whole : Event → Prop
  | .transition _ _ _ => True
  | .sealed _ r => lengthsAgree r
  | .latched _ kind r => lengthsAgree r ∧ r.kind = kind

/-- The invariant of the machine is that of the record, and that every event of the log is whole. -/
theorem State.inv_iff {s : State} : s.Inv ↔ s.sim.Inv ∧ ∀ e ∈ s.log, e.Whole := by
  constructor
  · rintro ⟨hsim, hsealed, hlatched⟩
    refine ⟨hsim, fun e he => ?_⟩
    cases e with
    | transition k a b => trivial
    | sealed k r => exact hsealed k r he
    | latched k kind r => exact hlatched k kind r he
  · rintro ⟨hsim, hlog⟩
    exact ⟨hsim, fun k r he => hlog _ he, fun k kind r he => hlog _ he⟩

/-- The register that entering the graph's successor emits is whole: it was open or pending before. -/
theorem RegistersFit.enter_events_whole {k : SeqIndex} {a : TapState} {m : Bit} {st st' : SimState}
    {evs : List Event} (h : RegistersFit a st) (he : enter k a (nextTap a m) st = .ok (st', evs)) :
    ∀ e ∈ evs, e.Whole := by
  rcases enter_cases he with ⟨_, _, rfl⟩ | ⟨_, _, _, _, _, rfl⟩ | ⟨_, _, r, hr, _, rfl⟩ | ⟨_, _, _, _, _, rfl⟩ |
    ⟨hu, kind, r, hk, hr, _, rfl⟩ | ⟨_, _, _, _, _, _, rfl⟩
  · simp
  · simp
  · obtain ⟨_, hlen⟩ := h.open_whole r hr
    simpa [Event.Whole] using hlen
  · simp
  · obtain ⟨_, _, hkind, _⟩ := holds_of_nextTap_update hu
    obtain ⟨hrk, hlen⟩ := h.pending_whole r hr
    simpa [Event.Whole] using ⟨hlen, Option.some.inj (hrk.symm.trans (hkind.symm.trans hk))⟩
  · simp

/-! ### RISE -/

/-- From a state of the invariant the body of RISE finishes. -/
theorem riseBody_ok_of_inv {s : State} (h : s.sim.Inv) (k : SeqIndex) (p : Pins) :
    ∃ st evs, riseBody s.cfg.samplePhase k p s.sim = .ok (st, evs) := by
  obtain ⟨reg, hshift, _⟩ := shiftIn_of_shiftReady p (shiftReady_of_inv h)
  have hfit := (h.registersFit.of_shiftIn hshift).of_eq (st' := (s.sim.setOpen reg).setOnes (countOnes s.sim.ones
    p.modeSelect)) rfl rfl rfl rfl
  obtain ⟨entered, evs, he⟩ := hfit.enter_ok k p.modeSelect
  simp only [riseBody, hshift, h.forceReset_nextTap, he]
  exact ⟨_, _, rfl⟩

/-- The body of RISE keeps the invariant, and what it emits is whole. -/
theorem riseBody_inv {phase : SamplePhase} {k : SeqIndex} {p : Pins} {st st' : SimState} {evs : List Event}
    (h : st.Inv) (hbody : riseBody phase k p st = .ok (st', evs)) : st'.Inv ∧ ∀ e ∈ evs, e.Whole := by
  obtain ⟨htap, hones, hprev, _⟩ := riseBody_frame hbody
  obtain ⟨shifted, entered, evs', hs, he, rfl, rfl⟩ := riseBody_cases hbody
  simp only [h.forceReset_nextTap] at he htap hones hprev ⊢
  have hfit : RegistersFit st.tap (shifted.setOnes (countOnes st.ones p.modeSelect)) :=
    (h.registersFit.of_shiftIn hs).of_eq rfl rfl rfl rfl
  refine ⟨RegistersFit.inv ?registers ?range ?walk ?prev, ?events⟩
  case registers => exact (hfit.of_enter he).of_eq rfl rfl rfl rfl
  case range => rw [hones]; exact countOnes_le _ _
  case walk => rw [htap, hones]; exact exists_onesWalk_nextTap h.ones_range h.ones_walk _
  case prev => intro hn; rw [hn] at hprev; cases hprev
  case events =>
    intro e hmem
    rcases List.mem_cons.1 hmem with rfl | hmem
    · trivial
    · exact hfit.enter_events_whole he e hmem

end Sys2Proof.Machine
end

section
/-! SUPPORT. RISE outside the register effects and in Shift-xR (42_commands.md R165, 41_shift_registers.md R131, R132),
RISE and the step from the states of the invariant, and the statements about them. -/

namespace Sys2Proof.Machine

/-! ### RISE on an edge that enters no register's state -/

/-- The counter where it does not reach five. -/
theorem countOnes_of_lt {n : Nat} {m : Bit} (h : m = 1 → n < 4) :
    countOnes n m = if m = 1 then n + 1 else 0 := by
  rw [countOnes_eq]
  split
  · next hm => exact Nat.min_eq_left (by have := h hm; omega)
  · rfl

/-- Settles O26: the shift and the entry have no effect, and the forced reset does not act. -/
theorem riseElsewhereTouchesNoRegister : Obligations.RiseElsewhereTouchesNoRegister := by
  intro s k o i m hf hones hns hc hx hu ht hx2
  have hforce : forceReset (countOnes s.sim.ones m) (nextTap s.sim.tap m) = nextTap s.sim.tap m := by
    rw [forceReset_countOnes]
    exact if_neg fun ⟨hm, hge⟩ => absurd (hones hm) (by omega)
  rw [exec_rise_of_enter hf (shiftIn_of_not_shift hns) hforce
    (enter_untouched ht hc (by simp [hx]) (by simp [hx2]) hu), countOnes_of_lt hones]
  rfl

/-- Settles O29: Shift-xR is entered from Capture-xR without effect. -/
theorem enteringShiftAppendsNothing : Obligations.EnteringShiftAppendsNothing := by
  intro s k o i cap sh hf hrow ht
  obtain ⟨hns, hnext, henter⟩ : isShift cap = false ∧ nextTap cap 0 = sh ∧
      enter k cap sh (s.sim.setOnes 0) = .ok (s.sim.setOnes 0, []) := by
    rcases hrow with h | h <;> cases h <;> exact ⟨rfl, rfl, rfl⟩
  exact exec_rise_zero_of_enter hf ht hns hnext henter

/-- A zero keeps Shift-xR, which is entered from itself without effect. -/
theorem enter_shift_self {k : SeqIndex} {a : TapState} {st : SimState} (hs : isShift a = true) :
    nextTap a 0 = a ∧ enter k a a st = .ok (st, []) := by
  obtain rfl | rfl : a = .shDR ∨ a = .shIR := by revert hs; cases a <;> decide
  · exact ⟨rfl, rfl⟩
  · exact ⟨rfl, rfl⟩

/-- Under BeforeEdge with no command before it, a shift is the error that names the phase (41_shift_registers.md
R132). -/
theorem shiftIn_without_command_before {p : Pins} {st : SimState} (hs : isShift st.tap = true)
    (hprev : st.prev = none) : shiftIn .beforeEdge p st = .error (.fatal .phase) := by
  simp [shiftIn, hs, hprev, shiftBits]

/-- Settles O28: the shift of the sampled bits, then an entry without effect; and the shift's own error. -/
theorem shiftAppendsSampledBits : Obligations.ShiftAppendsSampledBits := by
  intro s k o i r hf hs
  refine ⟨fun bo bi hr hbits => ?appends, fun m hphase hprev => ?phase⟩
  case appends =>
    obtain ⟨hnext, henter⟩ := enter_shift_self (k := k)
      (st := (s.sim.setOpen (some (appendBits r (bo, bi)))).setOnes (countOnes s.sim.ones 0)) hs
    rw [exec_rise_of_enter hf (shiftIn_of_sampled hs hr hbits) (by simpa using hnext) henter]
    rfl
  case phase =>
    have hbody : riseBody s.cfg.samplePhase k ⟨o, i, m⟩ s.sim = .error (.fatal .phase) := by
      rw [hphase, riseBody, shiftIn_without_command_before hs hprev]
    rw [exec_rise_of_no_fault hf, hbody]
    rfl

/-! ### Commands from the states of the invariant -/

/-- What entering a state emits is no Transition. -/
theorem transitionsOf_enter {k : SeqIndex} {s0 s1 : TapState} {st st' : SimState} {evs : List Event}
    (h : enter k s0 s1 st = .ok (st', evs)) : transitionsOf evs = [] ∧ evs.length ≤ 1 := by
  obtain rfl | ⟨_, _, rfl⟩ | ⟨_, _, _, _, rfl⟩ := enter_events h <;> exact ⟨rfl, by simp⟩

/-- From a state of the invariant without a fault, RISE with bits in its pins completes, along the graph. -/
theorem exec_rise_of_inv {s : State} (hinv : s.sim.Inv) (hf : s.sim.fault = none) (k : SeqIndex) (o i m : Bit) :
    ∃ t evs, exec (.rise (bitOperands k o i m)) s = .next t ∧ t.sim.tap = nextTap s.sim.tap m ∧
      t.sim.ones = countOnes s.sim.ones m ∧ t.sim.prev = some (o, i) ∧ t.sim.fault = none ∧
      t.log = s.log ++ .transition k s.sim.tap (nextTap s.sim.tap m) :: evs ∧
      transitionsOf evs = [] ∧ evs.length ≤ 1 := by
  obtain ⟨st, evs, hbody⟩ := riseBody_ok_of_inv hinv k ⟨o, i, m⟩
  obtain ⟨htap, hones, hprev, hfault⟩ := riseBody_frame hbody
  obtain ⟨shifted, entered, evs', _, he, _, rfl⟩ := riseBody_cases hbody
  obtain ⟨htrans, hlen⟩ := transitionsOf_enter he
  rw [hinv.forceReset_nextTap] at htap hbody
  exact ⟨_, evs', by rw [exec_rise_of_no_fault hf, hbody]; rfl, htap, hones, hprev, hfault.trans hf, rfl, htrans, hlen⟩

/-- Settles O25, adding what no command touches. -/
theorem riseCompletes : Obligations.RiseCompletes := by
  intro s k o i m hinv hf
  obtain ⟨t, evs, h, htap, hones, hprev, hfault, hlog, _, hlen⟩ := exec_rise_of_inv hinv hf k o i m
  exact ⟨t, evs, h, htap, hones.trans (countOnes_eq _ _), hprev, hfault, hlog, hlen, exec_input_eq h⟩

/-- A row of the graph's table: a state with its successors for 0 and for 1. -/
def isGraphRow (row : TapState × TapState × TapState) : Bool :=
  nextTap row.1 0 = row.2.1 ∧ nextTap row.1 1 = row.2.2

/-- Settles O21: each row of the table is the graph's, along which RISE completes. -/
theorem riseFollowsGraphTable : Obligations.RiseFollowsGraphTable := by
  intro a b0 b1 hrow s k o i hinv hf ht
  have hgraph : isGraphRow (a, b0, b1) = true := by
    refine List.all_eq_true.1 ?_ _ hrow
    decide
  obtain ⟨h0, h1⟩ : nextTap a 0 = b0 ∧ nextTap a 1 = b1 := by simpa [isGraphRow] using hgraph
  have rise_along (m : Bit) : ∃ t, exec (.rise (bitOperands k o i m)) s = .next t ∧ t.sim.tap = nextTap a m := by
    obtain ⟨t, _, h, htap, _⟩ := exec_rise_of_inv hinv hf k o i m
    exact ⟨t, h, ht ▸ htap⟩
  exact ⟨h0 ▸ rise_along 0, h1 ▸ rise_along 1⟩

/-- Commands that raise no error are NONE, RISE or FALL with bits in their pins (42_commands.md R171). -/
theorem protocolValid_cases {i : Instr} (h : i.protocolValid = true) :
    ∃ (k : SeqIndex) (o n m : Bit), i = .noEdge (bitOperands k o n m) ∨ i = .rise (bitOperands k o n m) ∨
      i = .fall (bitOperands k o n m) := by
  cases i with
  | noEdge c => obtain ⟨o, n, m, hc⟩ := eq_bitOperands_of_pinsOk h; exact ⟨_, o, n, m, .inl (congrArg _ hc)⟩
  | rise c => obtain ⟨o, n, m, hc⟩ := eq_bitOperands_of_pinsOk h; exact ⟨_, o, n, m, .inr (.inl (congrArg _ hc))⟩
  | fall c => obtain ⟨o, n, m, hc⟩ := eq_bitOperands_of_pinsOk h; exact ⟨_, o, n, m, .inr (.inr (congrArg _ hc))⟩
  | reserved c => cases h

/-- A command that is not protocol-valid, in a state without a fault, raises a fatal error. -/
theorem exec_of_not_protocolValid {i : Instr} {s : State} (hf : s.sim.fault = none) (h : i.protocolValid = false) :
    ∃ f, exec i s = .next (raiseFatal s i.operands.sequenceIndex f) := by
  cases i with
  | noEdge c => exact exec_noEdge_of_not_pinsOk hf h
  | rise c => exact (validate_of_not_pinsOk h).imp fun _ hv => exec_of_validate_error (by simp) hf hv
  | fall c => exact exec_noEdge_of_not_pinsOk hf h
  | reserved c => exact ⟨_, exec_reserved_of_no_fault hf⟩

/-- From a state of the invariant every command answers a next state (60_exceptions.md R188). -/
theorem exec_ok_of_inv {s : State} (hinv : s.sim.Inv) (i : Instr) : ∃ t, exec i s = .next t := by
  by_cases hf : s.sim.fault = none
  case neg => exact ⟨s, faultedStateIgnoresCommands s i hf⟩
  cases hi : i.protocolValid with
  | false =>
    obtain ⟨f, h⟩ := exec_of_not_protocolValid hf hi
    exact ⟨_, h⟩
  | true =>
    obtain ⟨k, o, n, m, rfl | rfl | rfl⟩ := protocolValid_cases hi
    · exact ⟨_, exec_noEdge_of_no_fault hf⟩
    · obtain ⟨t, _, h, _⟩ := exec_rise_of_inv hinv hf k o n m
      exact ⟨t, h⟩
    · exact ⟨_, exec_noEdge_of_no_fault hf⟩

/-- Every command keeps the invariant of the record, and the events it appends are whole. -/
theorem exec_keeps_inv {i : Instr} {s t : State} (hinv : s.sim.Inv) (h : exec i s = .next t) :
    t.sim.Inv ∧ ∃ evs, t.log = s.log ++ evs ∧ ∀ e ∈ evs, e.Whole := by
  rcases exec_cases h with ⟨rfl, _⟩ | ⟨_, f, rfl⟩ | ⟨_, p, st, evs, _, rfl, ⟨rfl, rfl, _⟩ | ⟨c, _, hbody⟩⟩
  · exact ⟨hinv, [], by simp⟩
  · exact ⟨hinv.setFault _, [], by simp⟩
  · exact ⟨hinv.setPrev _, [], by simp⟩
  · obtain ⟨hst, hevs⟩ := riseBody_inv hinv hbody
    exact ⟨hst, evs, rfl, hevs⟩

/-! ### The step -/

theorem step_of_cons {s : State} {c : PortInput} {rest : List PortInput} (h : s.stream = c :: rest) :
    step s = exec (decodeInput s.position c) { s with stream := rest, position := s.position + 1 } := by
  simp [step, fetch, h]

theorem step_of_nil {s : State} (h : s.stream = []) : step s = .fault .endOfStream := by
  simp [step, fetch, h]

/-- Settles O39, by the two ways a fetch can go. -/
theorem stepRunsNextCommand : Obligations.StepRunsNextCommand :=
  ⟨fun _ _ _ h => step_of_cons h, fun _ h => step_of_nil h⟩

/-- Settles O40: the record is the reset record, and no event has been emitted. -/
theorem resetMeetsInvariant : Obligations.ResetMeetsInvariant := by
  have h (p : SamplePhase) : (State.resetWith p).Inv :=
    State.inv_iff.2 ⟨SimState.reset_inv, by simp [State.resetWith]⟩
  exact ⟨h _, h⟩

/-- Settles O41: a step is a command on a state with the same record and log, and every command keeps the invariant. -/
theorem stepKeepsInvariant : Obligations.StepKeepsInvariant := by
  intro s t hinv hstep
  obtain ⟨hsim, hlog⟩ := State.inv_iff.1 hinv
  cases hs : s.stream with
  | nil => rw [step_of_nil hs] at hstep; cases hstep
  | cons c rest =>
    rw [step_of_cons hs] at hstep
    obtain ⟨hsim', evs, hlog', hevs⟩ := exec_keeps_inv (s := { s with stream := rest, position := _ }) hsim hstep
    refine State.inv_iff.2 ⟨hsim', fun e he => ?_⟩
    rw [hlog'] at he
    exact (List.mem_append.1 he).elim (hlog e) (hevs e)

/-- Settles O42: the command at the head of the stream answers a next state. -/
theorem stepNeverSticks : Obligations.StepNeverSticks := by
  intro s hinv hne
  obtain ⟨c, rest, hs⟩ := List.exists_cons_of_ne_nil hne
  rw [step_of_cons hs]
  exact exec_ok_of_inv (s := { s with stream := rest, position := _ }) hinv _

end Sys2Proof.Machine
end

section
/-! SUPPORT. Commands in a row (20_memory.md R48): what a list of protocol-valid commands leaves, by its Rising
commands, and the statements about sequences of ones and dropped NONE commands. -/

namespace Sys2Proof.Machine

/-! ### Lists of commands -/

theorem bitOperands_pinsOk (k : SeqIndex) (o i m : Bit) : (bitOperands k o i m).pinsOk = true := by
  simp [bitOperands, Operands.pinsOk, Operands.modeSelectOk, Operands.dataOutOk, Operands.dataInOk, Fin.is_le]

theorem commandBits_of_operands {i : Instr} {k : SeqIndex} {o n m : Bit}
    (h : i.operands = bitOperands k o n m) : commandBits i = some (o, n) := by
  simp [commandBits, h, bitOperands]

@[simp] theorem risingModes_rise (k : SeqIndex) (o i m : Bit) (l : List Instr) :
    risingModes (.rise (bitOperands k o i m) :: l) = m :: risingModes l := by
  simp [risingModes, bitOperands]

theorem risingModes_append (l l' : List Instr) : risingModes (l ++ l') = risingModes l ++ risingModes l' := by
  induction l with
  | nil => rfl
  | cons i rest ih =>
    cases i with
    | rise c => cases hm : pinBit c.modeSelect <;> simp [risingModes, hm, ih]
    | noEdge c => exact ih
    | fall c => exact ih
    | reserved c => exact ih

/-- A dropped NONE is no Rising command. -/
theorem risingModes_filter_notNone (l : List Instr) : risingModes (l.filter Instr.notNone) = risingModes l := by
  induction l with
  | nil => rfl
  | cons i rest ih => cases i <;> simp [List.filter_cons, Instr.notNone, risingModes, ih]

@[simp] theorem transitionsOf_append (xs ys : List Event) :
    transitionsOf (xs ++ ys) = transitionsOf xs ++ transitionsOf ys := by
  induction xs with
  | nil => rfl
  | cons e rest ih => cases e <;> simp [transitionsOf, ih]

/-- The Transition events of a list of commands from TAP state `a`, by its Rising commands. -/
def transitionsAlong (a : TapState) : List Instr → List Event
  | [] => []
  | .rise c :: rest =>
    match pinBit c.modeSelect with
    | some m => .transition c.sequenceIndex a (nextTap a m) :: transitionsAlong (nextTap a m) rest
    | none => transitionsAlong a rest
  | .noEdge _ :: rest => transitionsAlong a rest
  | .fall _ :: rest => transitionsAlong a rest
  | .reserved _ :: rest => transitionsAlong a rest

@[simp] theorem transitionsAlong_rise (a : TapState) (k : SeqIndex) (o i m : Bit) (l : List Instr) :
    transitionsAlong a (.rise (bitOperands k o i m) :: l) =
      .transition k a (nextTap a m) :: transitionsAlong (nextTap a m) l := by
  simp [transitionsAlong, bitOperands]

theorem transitionsAlong_filter_notNone (a : TapState) (l : List Instr) :
    transitionsAlong a (l.filter Instr.notNone) = transitionsAlong a l := by
  induction l generalizing a with
  | nil => rfl
  | cons i rest ih => cases i <;> simp [List.filter_cons, Instr.notNone, transitionsAlong, ih]

/-! ### NONE and FALL in a list -/

/-- FALL records the data bits and emits nothing, as NONE does. -/
theorem exec_fall_of_no_fault {s : State} {k : SeqIndex} {o i m : Bit} (hf : s.sim.fault = none) :
    exec (.fall (bitOperands k o i m)) s = .next (s.setSim (s.sim.setPrev (some (o, i)))) :=
  exec_noEdge_of_no_fault hf

/-- `i` is a command that records the bits `b` and has no other part in a list: it moves no TAP and samples nothing. -/
structure Records (i : Instr) (b : Bit × Bit) : Prop where
  exec_eq : ∀ s : State, s.sim.fault = none → exec i s = .next (s.setSim (s.sim.setPrev (some b)))
  modes : ∀ l, risingModes (i :: l) = risingModes l
  transitions : ∀ a l, transitionsAlong a (i :: l) = transitionsAlong a l
  sampled : ∀ phase before l, sampledBits phase before (i :: l) = sampledBits phase (some b) l

theorem records_noEdge (k : SeqIndex) (o i m : Bit) : Records (.noEdge (bitOperands k o i m)) (o, i) where
  exec_eq _ hf := exec_noEdge_of_no_fault hf
  modes _ := rfl
  transitions _ _ := rfl
  sampled _ _ _ := by rw [sampledBits, commandBits_of_operands rfl]

theorem records_fall (k : SeqIndex) (o i m : Bit) : Records (.fall (bitOperands k o i m)) (o, i) where
  exec_eq _ hf := exec_fall_of_no_fault hf
  modes _ := rfl
  transitions _ _ := rfl
  sampled _ _ _ := by rw [sampledBits, commandBits_of_operands rfl]

/-- A protocol-valid command records its bits and does no more, or is a RISE with bits in its pins. -/
theorem records_or_rise {i : Instr} (h : i.protocolValid = true) :
    (∃ b, Records i b) ∨ ∃ (k : SeqIndex) (o n m : Bit), i = .rise (bitOperands k o n m) := by
  obtain ⟨k, o, n, m, rfl | rfl | rfl⟩ := protocolValid_cases h
  · exact .inl ⟨_, records_noEdge k o n m⟩
  · exact .inr ⟨k, o, n, m, rfl⟩
  · exact .inl ⟨_, records_fall k o n m⟩

/-! ### What a list of protocol-valid commands leaves -/

/-- `l` leads from `s` to `t`, which meets the invariant and has no fault; its TAP state, its count and the Transition
events are given by the Rising commands. -/
structure LeadsTo (l : List Instr) (s t : State) : Prop where
  exec_eq : execAll l s = .next t
  inv : t.sim.Inv
  no_fault : t.sim.fault = none
  tap_eq : t.sim.tap = tapWalk s.sim.tap (risingModes l)
  ones_eq : t.sim.ones = (risingModes l).foldl countOnes s.sim.ones
  transitions_eq : transitionsOf t.log = transitionsOf s.log ++ transitionsAlong s.sim.tap l

/-- Protocol-valid commands from a state of the invariant without a fault all complete (42_commands.md R171). -/
theorem exists_leadsTo {l : List Instr} {s : State} (hinv : s.sim.Inv) (hf : s.sim.fault = none)
    (hl : ∀ i ∈ l, i.protocolValid = true) : ∃ t, LeadsTo l s t := by
  induction l generalizing s with
  | nil => exact ⟨s, rfl, hinv, hf, rfl, rfl, (List.append_nil _).symm⟩
  | cons i rest ih =>
    obtain ⟨hi, hrest⟩ := List.forall_mem_cons.1 hl
    obtain ⟨b, hb⟩ | ⟨k, o, n, m, rfl⟩ := records_or_rise hi
    · obtain ⟨t, h⟩ := ih (s := s.setSim (s.sim.setPrev (some b))) (hinv.setPrev _) hf hrest
      exact ⟨t, (execAll_cons_of_next (hb.exec_eq s hf)).trans h.exec_eq, h.inv, h.no_fault, hb.modes rest ▸ h.tap_eq,
        hb.modes rest ▸ h.ones_eq, hb.transitions s.sim.tap rest ▸ h.transitions_eq⟩
    · obtain ⟨s', evs, hexec, htap, hones, _, hf', hlog, htrans, _⟩ := exec_rise_of_inv hinv hf k o n m
      obtain ⟨t, h⟩ := ih (exec_keeps_inv hinv hexec).1 hf' hrest
      refine ⟨t, (execAll_cons_of_next hexec).trans h.exec_eq, h.inv, h.no_fault, ?_, ?_, ?_⟩
      · rw [h.tap_eq, htap, risingModes_rise]; rfl
      · rw [h.ones_eq, hones, risingModes_rise]; rfl
      · rw [h.transitions_eq, hlog, htap]
        simp [transitionsOf, htrans]

/-- The state it leads to is the one that the commands leave. -/
theorem leadsTo_of_execAll {l : List Instr} {s t : State} (hinv : s.sim.Inv) (hf : s.sim.fault = none)
    (hl : ∀ i ∈ l, i.protocolValid = true) (h : execAll l s = .next t) : LeadsTo l s t := by
  obtain ⟨t', ht'⟩ := exists_leadsTo hinv hf hl
  obtain rfl : t' = t := by simpa [ht'.exec_eq] using h
  exact ht'

/-! ### Five ones -/

/-- Settles O43: five ones lead to Test-Logic-Reset by the graph, and a zero from there to Run-Test/Idle. -/
theorem fiveOnesReachTestLogicReset : Obligations.FiveOnesReachTestLogicReset := by
  intro s l l' hinv hf hvalid hones hzero
  obtain ⟨hl, hl'⟩ := List.forall_mem_append.1 hvalid
  obtain ⟨t, ht⟩ := exists_leadsTo hinv hf hl
  obtain ⟨u, hu⟩ := exists_leadsTo ht.inv ht.no_fault hl'
  have htap : t.sim.tap = .tlr := by
    rw [ht.tap_eq, hones]
    exact onesWalk_five s.sim.tap
  exact ⟨t, u, ht.exec_eq, htap, hu.exec_eq, by rw [hu.tap_eq, hzero, htap]; rfl⟩

/-- The history of ones along a list of mode_select values. -/
theorem exists_onesWalk_tapWalk {n : Nat} {a : TapState} (ms : List Bit) (hn : n ≤ Config.resetOnes)
    (h : ∃ b, a = onesWalk n b) : ∃ b, tapWalk a ms = onesWalk (ms.foldl countOnes n) b := by
  induction ms generalizing n a with
  | nil => exact h
  | cons m rest ih => exact ih (countOnes_le n m) (exists_onesWalk_nextTap hn h m)

/-- Values that count up to five lead every TAP to Test-Logic-Reset (70_reset_and_hazards.md R204). -/
theorem tapWalk_eq_tlr_of_five {ms : List Bit} (h : ms.foldl countOnes 0 = 5) (a : TapState) :
    tapWalk a ms = .tlr := by
  obtain ⟨b, hb⟩ := exists_onesWalk_tapWalk (n := 0) (a := a) ms (Nat.zero_le _) ⟨a, rfl⟩
  rw [hb, h, onesWalk_five]

/-- Settles O45: both TAPs are in Test-Logic-Reset when five ones are counted, and from there follow the same graph. -/
theorem fiveOnesSynchronise : Obligations.FiveOnesSynchronise := by
  intro s t u l l' target hinv hf hzero hvalid ht hones hu
  obtain ⟨hl, hl'⟩ := List.forall_mem_append.1 hvalid
  have hst := leadsTo_of_execAll hinv hf hl ht
  have htu := leadsTo_of_execAll hst.inv hst.no_fault hl' hu
  have hfive : (risingModes l).foldl countOnes 0 = 5 := by rw [← hones, hst.ones_eq, hzero]
  have hmeet : tapWalk target (risingModes l) = t.sim.tap := by
    rw [hst.tap_eq, tapWalk_eq_tlr_of_five hfive, tapWalk_eq_tlr_of_five hfive]
  refine ⟨hmeet, ?_⟩
  calc tapWalk target (risingModes (l ++ l'))
      = tapWalk (tapWalk target (risingModes l)) (risingModes l') := by
        rw [risingModes_append]; exact List.foldl_append
    _ = u.sim.tap := by rw [hmeet, htu.tap_eq]

/-! ### Dropping the NONE commands -/

/-- Under OnEdge the shift does not read `prev`. -/
theorem shiftIn_onEdge_setPrev {p : Pins} {st st' : SimState} (h : shiftIn .onEdge p st = .ok st')
    (q : Option (Bit × Bit)) : shiftIn .onEdge p (st.setPrev q) = .ok (st'.setPrev q) := by
  rcases shiftIn_cases h with ⟨hs, rfl⟩ | ⟨hs, b, r, hb, hr, rfl⟩
  · exact shiftIn_of_not_shift hs
  · obtain rfl : dataBits p = b := by simpa [shiftBits] using hb
    exact shiftIn_of_sampled hs hr (.inl ⟨rfl, rfl⟩)

/-- Nor does entering a state. -/
theorem enter_setPrev {k : SeqIndex} {s0 s1 : TapState} {st st' : SimState} {evs : List Event}
    (h : enter k s0 s1 st = .ok (st', evs)) (q : Option (Bit × Bit)) :
    enter k s0 s1 (st.setPrev q) = .ok (st'.setPrev q, evs) := by
  rcases enter_cases h with ⟨rfl, rfl, rfl⟩ | ⟨_, hc, kind, hk, rfl, rfl⟩ | ⟨hx, h0, r, hr, rfl, rfl⟩ |
    ⟨hx2, hs, kind, hk, rfl, rfl⟩ | ⟨hu, kind, r, hk, hr, rfl, rfl⟩ | ⟨ht, hc, hx, hr, hu, rfl, rfl⟩
  · rfl
  · exact enter_capture hc hk
  · exact enter_exit1 h0 hx hr
  · exact enter_resume hx2 hs hk
  · rw [enter_update (st := st.setPrev q) hu hk hr]
    cases kind <;> rfl
  · exact enter_untouched ht hc hx hr hu

/-- So under OnEdge the body of RISE does the same whatever bits came before: it overwrites `prev`. -/
theorem riseBody_onEdge_setPrev {k : SeqIndex} {p : Pins} {st st' : SimState} {evs : List Event}
    (h : riseBody .onEdge k p st = .ok (st', evs)) (q : Option (Bit × Bit)) :
    riseBody .onEdge k p (st.setPrev q) = .ok (st', evs) := by
  obtain ⟨shifted, entered, evs', hs, he, rfl, rfl⟩ := riseBody_cases h
  have he' : enter k st.tap (forceReset (countOnes st.ones p.modeSelect) (nextTap st.tap p.modeSelect))
      ((shifted.setPrev q).setOnes (countOnes st.ones p.modeSelect)) = .ok (entered.setPrev q, evs') :=
    enter_setPrev he q
  simp only [riseBody, shiftIn_onEdge_setPrev hs q, SimState.setPrev_tap, SimState.setPrev_ones, he']
  rfl

/-- Under OnEdge, from states equal but for `prev`, commands with and without their NONE entries leave states equal but
for `prev` (42_commands.md R172). -/
theorem execAll_filter_notNone {l : List Instr} {s t : State} (hinv : s.sim.Inv) (hf : s.sim.fault = none)
    (hl : ∀ i ∈ l, i.protocolValid = true) (hphase : s.cfg.samplePhase = .onEdge) (h : execAll l s = .next t)
    (q : Option (Bit × Bit)) :
    ∃ q', execAll (l.filter Instr.notNone) (s.setSim (s.sim.setPrev q)) = .next (t.setSim (t.sim.setPrev q')) := by
  induction l generalizing s q with
  | nil =>
    obtain rfl : s = t := by simpa [execAll] using h
    exact ⟨q, rfl⟩
  | cons i rest ih =>
    obtain ⟨hi, hrest⟩ := List.forall_mem_cons.1 hl
    obtain ⟨k, o, n, m, rfl | rfl | rfl⟩ := protocolValid_cases hi
    · rw [execAll_cons_of_next (exec_noEdge_of_no_fault hf)] at h
      exact ih (s := s.setSim (s.sim.setPrev (some (o, n)))) (hinv.setPrev _) hf hrest hphase h q
    · obtain ⟨st, evs, hbody⟩ := riseBody_ok_of_inv hinv k ⟨o, n, m⟩
      have hexec : exec (.rise (bitOperands k o n m)) s = .next ((s.setSim st).emit evs) := by
        rw [exec_rise_of_no_fault hf, hbody]; rfl
      have hexec' : exec (.rise (bitOperands k o n m)) (s.setSim (s.sim.setPrev q)) =
          .next ((s.setSim st).emit evs) := by
        rw [hphase] at hbody
        rw [exec_rise_of_no_fault (by simpa using hf), State.setSim_cfg, hphase, State.setSim_sim,
          riseBody_onEdge_setPrev hbody]
        rfl
      obtain ⟨_, _, _, hfault⟩ := riseBody_frame hbody
      rw [execAll_cons_of_next hexec] at h
      obtain ⟨q', hq'⟩ := ih (s := (s.setSim st).emit evs) (exec_keeps_inv hinv hexec).1 (hfault.trans hf) hrest hphase
        h st.prev
      exact ⟨q', (execAll_cons_of_next hexec').trans hq'⟩
    · rw [execAll_cons_of_next (exec_fall_of_no_fault hf)] at h
      obtain ⟨q', hq'⟩ :=
        ih (s := s.setSim (s.sim.setPrev (some (o, n)))) (hinv.setPrev _) hf hrest hphase h (some (o, n))
      refine ⟨q', (execAll_cons_of_next ?_).trans hq'⟩
      exact exec_fall_of_no_fault (s := s.setSim (s.sim.setPrev q)) hf

/-- Settles O46: the TAP and the Transition events go by the Rising commands, which are kept; under OnEdge the rest
goes along too. -/
theorem droppingNoneKeepsTrajectory : Obligations.DroppingNoneKeepsTrajectory := by
  intro s l hinv hf hl
  have hkept : ∀ i ∈ l.filter Instr.notNone, i.protocolValid = true := fun i hi => hl i (List.mem_of_mem_filter hi)
  obtain ⟨t, ht⟩ := exists_leadsTo hinv hf hl
  obtain ⟨u, hu⟩ := exists_leadsTo hinv hf hkept
  refine ⟨t, u, ht.exec_eq, hu.exec_eq, ?tap, ?transitions, fun hphase => ?record⟩
  case tap => rw [hu.tap_eq, ht.tap_eq, risingModes_filter_notNone]
  case transitions => rw [hu.transitions_eq, ht.transitions_eq, transitionsAlong_filter_notNone]
  case record =>
    obtain ⟨q, hq⟩ := execAll_filter_notNone hinv hf hl hphase ht.exec_eq s.sim.prev
    obtain rfl : u = t.setSim (t.sim.setPrev q) := Host.Outcome.next.inj (hu.exec_eq.symm.trans hq)
    exact ⟨rfl, rfl⟩

end Sys2Proof.Machine
end

section
/-! SUPPORT. The sampling phase (41_shift_registers.md R132): commands whose data are steady do the same in both
(70_reset_and_hazards.md R205). -/

namespace Sys2Proof.Machine

/-- A list of commands that answers a state ran its first command and then the rest. -/
theorem execAll_cons_cases {i : Instr} {rest : List Instr} {s t : State} (h : execAll (i :: rest) s = .next t) :
    ∃ s', exec i s = .next s' ∧ execAll rest s' = .next t := by
  cases hi : exec i s with
  | next s' => exact ⟨s', rfl, by rwa [execAll_cons_of_next hi] at h⟩
  | fault r => simp [execAll, hi] at h
  | refused r => simp [execAll, hi] at h

/-- The state of a run in the other phase. -/
def State.withPhase (s : State) (phase : SamplePhase) : State := { s with cfg := { samplePhase := phase } }

/-- What every command shares does not read the phase, so two bodies that agree on validated pins do the same. -/
theorem applyCommand_withPhase {c : Operands} {s t : State} {body body' : Pins → Except Abort (SimState × List Event)}
    {phase : SamplePhase} (hbody : s.sim.fault = none → ∀ p, validate c = .ok p → body' p = body p)
    (h : applyCommand c s body = .next t) : applyCommand c (s.withPhase phase) body' = .next (t.withPhase phase) := by
  rcases applyCommand_cases h with ⟨hf, rfl⟩ | ⟨hf, f, hv, rfl⟩ | ⟨hf, p, hv, ht⟩
  · exact applyCommand_of_fault hf
  · exact applyCommand_of_validate_error (s := s.withPhase phase) hf hv
  · have hshared : applyCommand c (s.withPhase phase) body' =
        conclude (s.withPhase phase) c.sequenceIndex (body p) := by
      simp [applyCommand, isFaulted, State.withPhase, hf, hv, hbody hf p hv]
    rw [hshared]
    rcases conclude_cases ht with ⟨st, evs, hb, rfl⟩ | ⟨f, hb, rfl⟩ <;> rw [hb] <;> rfl

/-- With the command's own bits before it, the phases sample the same. -/
theorem riseBody_beforeEdge_of_prev {k : SeqIndex} {p : Pins} {st : SimState} (h : st.prev = some (dataBits p)) :
    riseBody .beforeEdge k p st = riseBody .onEdge k p st := by
  simp [riseBody, shiftIn, shiftBits, h]

/-- The data bits of validated operands. -/
theorem commandBits_of_validate {i : Instr} {p : Pins} (h : validate i.operands = .ok p) :
    commandBits i = some (dataBits p) :=
  commandBits_of_operands (eq_bitOperands_of_validate h)

/-- A command that answers a state has recorded its bits there, or left a fault. -/
theorem exec_prev_cases {i : Instr} {s t : State} (h : exec i s = .next t) :
    t.sim.fault ≠ none ∨ t.sim.prev = commandBits i := by
  rcases exec_cases h with ⟨rfl, hf⟩ | ⟨_, f, rfl⟩ | ⟨_, p, st, evs, hv, rfl, ⟨rfl, _, _⟩ | ⟨c, _, hbody⟩⟩
  · exact .inl hf
  · exact .inl (by simp)
  · exact .inr (commandBits_of_validate hv).symm
  · obtain ⟨_, _, hprev, _⟩ := riseBody_frame hbody
    exact .inr (hprev.trans (commandBits_of_validate hv).symm)

/-- A command whose data are steady, if it is a RISE, does under BeforeEdge what it does under OnEdge. -/
theorem exec_beforeEdge_of_steady {i : Instr} {s t : State} (hphase : s.cfg.samplePhase = .onEdge)
    (hsteady : s.sim.fault ≠ none ∨ ((∃ c, i = .rise c) → s.sim.prev = commandBits i))
    (h : exec i s = .next t) : exec i (s.withPhase .beforeEdge) = .next (t.withPhase .beforeEdge) := by
  cases i with
  | noEdge c => exact applyCommand_withPhase (fun _ _ _ => rfl) h
  | fall c => exact applyCommand_withPhase (fun _ _ _ => rfl) h
  | rise c =>
    refine applyCommand_withPhase (fun hf p hv => ?_) h
    have hprev : s.sim.prev = some (dataBits p) :=
      (hsteady.resolve_left (not_not.2 hf) ⟨c, rfl⟩).trans (commandBits_of_validate (i := .rise c) hv)
    rw [hphase]
    exact riseBody_beforeEdge_of_prev hprev
  | reserved c =>
    by_cases hf : s.sim.fault = none
    · rw [exec_reserved_of_no_fault hf] at h
      obtain rfl := Host.Outcome.next.inj h
      exact exec_reserved_of_no_fault (s := s.withPhase .beforeEdge) hf
    · rw [faultedStateIgnoresCommands s _ hf] at h
      obtain rfl := Host.Outcome.next.inj h
      exact faultedStateIgnoresCommands (s.withPhase .beforeEdge) _ hf

theorem dataSteady_cons {before : Option (Bit × Bit)} {i : Instr} {rest : List Instr} :
    dataSteady before (i :: rest) ↔
      ((∃ c, i = .rise c) → before = commandBits i) ∧ dataSteady (commandBits i) rest := by
  cases i <;> simp [dataSteady]

/-- Steady commands, from a state that has the bits before them or a fault. -/
theorem execAll_beforeEdge_of_steady {l : List Instr} {before : Option (Bit × Bit)} {s t : State}
    (hphase : s.cfg.samplePhase = .onEdge) (hprev : s.sim.fault ≠ none ∨ s.sim.prev = before)
    (hsteady : dataSteady before l) (h : execAll l s = .next t) :
    execAll l (s.withPhase .beforeEdge) = .next (t.withPhase .beforeEdge) := by
  induction l generalizing before s with
  | nil =>
    obtain rfl : s = t := by simpa [execAll] using h
    rfl
  | cons i rest ih =>
    obtain ⟨hi, hrest⟩ := dataSteady_cons.1 hsteady
    obtain ⟨s', hexec, h'⟩ := execAll_cons_cases h
    have hcfg : s'.cfg.samplePhase = .onEdge := (exec_input_eq hexec).1 ▸ hphase
    rw [execAll_cons_of_next (exec_beforeEdge_of_steady hphase (hprev.imp_right fun hp hr => hp.trans (hi hr)) hexec)]
    exact ih hcfg (exec_prev_cases hexec) hrest h'

/-- Settles O47: the bits before the list are those in the state. -/
theorem steadyDataHidesPhase : Obligations.SteadyDataHidesPhase :=
  fun _ _ _ hsteady hphase h => execAll_beforeEdge_of_steady hphase (.inr rfl) hsteady h

end Sys2Proof.Machine
end

section
/-! SUPPORT. Runs (42_commands.md R167): steps of the machine over its stream, the fold over a stream against its
commands in a row, and the statements about runs. -/

namespace Sys2Proof.Machine

/-! ### The step beside any input -/

/-- The state with a stream and a position: what a command neither reads nor writes. -/
def State.withInput (s : State) (cs : List PortInput) (p : Nat) : State := { s with stream := cs, position := p }

theorem State.load_eq_withInput (s : State) (cs : List PortInput) : s.load cs = s.withInput cs s.position := rfl

theorem step_withInput_cons (s : State) (c : PortInput) (rest : List PortInput) (p : Nat) :
    step (s.withInput (c :: rest) p) = exec (decodeInput p c) (s.withInput rest (p + 1)) := rfl

/-- A step does to the state what its command does, and moves the input on. -/
theorem step_withInput_of_exec {s s' : State} {c : PortInput} {p : Nat} (rest : List PortInput)
    (h : exec (decodeInput p c) s = .next s') :
    step (s.withInput (c :: rest) p) = .next (s'.withInput rest (p + 1)) := by
  rw [step_withInput_cons]
  exact exec_withInput rest (p + 1) h

/-! ### Steps in a row -/

theorem run_core_succ_of_step {n : Nat} {s s' : State} (h : step s = .next s') :
    Host.Core.run Sys2Proof.core (n + 1) s = Host.Core.run Sys2Proof.core n s' := by
  simp [Host.Core.run, Sys2Proof.core, h]

/-- Steps that answer a state began with one that does. -/
theorem run_core_succ_cases {n : Nat} {s t : State} (h : Host.Core.run Sys2Proof.core (n + 1) s = .next t) :
    ∃ s', step s = .next s' ∧ Host.Core.run Sys2Proof.core n s' = .next t := by
  cases hs : step s with
  | next s' => exact ⟨s', rfl, by rwa [run_core_succ_of_step hs] at h⟩
  | fault r => simp [Host.Core.run, Sys2Proof.core, hs] at h
  | refused r => simp [Host.Core.run, Sys2Proof.core, hs] at h

/-- Settles O19: each step of a faulted machine takes an entry of the stream and does nothing else. -/
theorem faultIsNeverCleared : Obligations.FaultIsNeverCleared := by
  intro n
  induction n with
  | zero => exact fun s _ _ => ⟨s, rfl, rfl, rfl⟩
  | succ n ih =>
    intro s hf hlen
    cases hs : s.stream with
    | nil => simp [hs] at hlen
    | cons c rest =>
      have hstep : step s = .next { s with stream := rest, position := s.position + 1 } := by
        rw [step_of_cons hs]
        exact faultedStateIgnoresCommands _ _ hf
      rw [run_core_succ_of_step hstep]
      exact ih { s with stream := rest, position := s.position + 1 } hf (by simpa [hs] using hlen)

/-- Settles O49, by induction on the first batch: a command does the same whatever stream stands behind it. -/
theorem batchesComposeToOneRun : Obligations.BatchesComposeToOneRun := by
  intro s t xs ys h
  induction xs generalizing s with
  | nil =>
    obtain rfl := Host.Outcome.next.inj h
    rw [List.length_nil, Nat.zero_add]
    rfl
  | cons c rest ih =>
    obtain ⟨s', hstep, hrest⟩ := run_core_succ_cases h
    have hexec : exec (decodeInput s.position c) (s.withInput rest (s.position + 1)) = .next s' := hstep
    obtain ⟨_, hstream, hposition⟩ := exec_input_eq hexec
    have hload (cs : List PortInput) : s'.withInput cs (s.position + 1) = s'.load cs := by
      rw [State.load_eq_withInput, hposition]; rfl
    have hstep' : step (s.load (c :: rest ++ ys)) = .next (s'.load (rest ++ ys)) :=
      (step_withInput_of_exec (rest ++ ys) hexec).trans (congrArg _ (hload _))
    have hself : s' = s'.load rest := by
      rw [State.load, show rest = s'.stream from hstream.symm]
    rw [List.length_cons, Nat.succ_add, run_core_succ_of_step hstep']
    exact ih s' (hself ▸ hrest)

/-! ### The fold over a stream -/

/-- The commands of stream entries from a position on. -/
def decodeFrom (p : Nat) : List PortInput → List Instr
  | [] => []
  | c :: rest => decodeInput p c :: decodeFrom (p + 1) rest

theorem decodeFrom_eq_mapIdx (p : Nat) (cs : List PortInput) :
    decodeFrom p cs = cs.mapIdx fun k => decodeInput (p + k) := by
  induction cs generalizing p with
  | nil => rfl
  | cons c rest ih => simp [decodeFrom, ih, Nat.add_assoc, Nat.add_comm 1]

/-- The commands of a stream, each at its position. -/
theorem decodeFrom_zero (cs : List PortInput) : decodeFrom 0 cs = cs.mapIdx decodeInput := by
  simp [decodeFrom_eq_mapIdx]

theorem decodeFrom_map_record (p : Nat) (cs : List FtdiCommand) :
    decodeFrom p (cs.map .record) = cs.map decodeRecord := by
  induction cs generalizing p with
  | nil => rfl
  | cons c rest ih => simp [decodeFrom, ih, decodeInput]

/-- Entries that are protocol-valid at each position are so as a list. -/
theorem decodeFrom_zero_protocolValid {cs : List PortInput}
    (h : ∀ k c, cs[k]? = some c → (decodeInput k c).protocolValid = true) :
    ∀ i ∈ decodeFrom 0 cs, i.protocolValid = true := by
  rw [decodeFrom_zero]
  intro i hi
  obtain ⟨k, hk, rfl⟩ := List.mem_mapIdx.1 hi
  exact h k _ (List.getElem?_eq_getElem hk)

/-- The fold over protocol-valid entries comes to what follows them, in the state that their commands leave. -/
theorem runLoop_of_protocolValid {cs : List PortInput} {p : Nat} {s : State} (rest : List PortInput) (n : Nat)
    (hinv : s.sim.Inv) (hf : s.sim.fault = none) (hvalid : ∀ i ∈ decodeFrom p cs, i.protocolValid = true) :
    ∃ t, execAll (decodeFrom p cs) s = .next t ∧ t.sim.fault = none ∧
      runLoop (cs.length + n) (s.withInput (cs ++ rest) p) = runLoop n (t.withInput rest (p + cs.length)) := by
  induction cs generalizing p s with
  | nil => exact ⟨s, rfl, hf, by simp⟩
  | cons c cs ih =>
    obtain ⟨hc, hcs⟩ := List.forall_mem_cons.1 hvalid
    obtain ⟨s', hs'⟩ := exists_leadsTo hinv hf (List.forall_mem_singleton.2 hc)
    have hexec : exec (decodeInput p c) s = .next s' := by
      obtain ⟨_, hexec, h⟩ := execAll_cons_cases hs'.exec_eq
      rwa [Host.Outcome.next.inj h] at hexec
    obtain ⟨t, ht, htf, hloop⟩ := ih hs'.inv hs'.no_fault hcs
    refine ⟨t, (execAll_cons_of_next hexec).trans ht, htf, ?_⟩
    rw [List.length_cons, Nat.succ_add, List.cons_append,
      runLoop_of_next (step_withInput_of_exec (cs ++ rest) hexec) hs'.no_fault, hloop, Nat.add_right_comm,
      Nat.add_assoc]

/-- A run of protocol-valid entries completes with what their commands leave. -/
theorem run_of_protocolValid {cs : List PortInput} (phase : SamplePhase)
    (hvalid : ∀ i ∈ decodeFrom 0 cs, i.protocolValid = true) :
    ∃ t, execAll (decodeFrom 0 cs) (State.resetWith phase) = .next t ∧ run phase cs = .completed t.sim t.log ∧
      t.sim.fault = none := by
  obtain ⟨t, ht, hf, hloop⟩ := runLoop_of_protocolValid (s := State.resetWith phase) [] 0 SimState.reset_inv rfl hvalid
  rw [List.append_nil] at hloop
  exact ⟨t, ht, hloop, hf⟩

/-- Settles O50: the entries, decoded at their positions, are protocol-valid commands. -/
theorem wellFormedRunCompletes : Obligations.WellFormedRunCompletes := by
  intro phase cs hvalid
  rw [← decodeFrom_zero]
  exact run_of_protocolValid phase (decodeFrom_zero_protocolValid hvalid)

/-- After protocol-valid entries, one whose command raises a fatal error in every state without a fault ends the run
with its record. -/
theorem run_of_fatal {good rest : List PortInput} {bad : PortInput} {field : FieldName} (phase : SamplePhase)
    (hvalid : ∀ i ∈ decodeFrom 0 good, i.protocolValid = true)
    (hbad : ∀ s : State, s.sim.fault = none → exec (decodeInput good.length bad) s =
      .next (raiseFatal s (decodeInput good.length bad).operands.sequenceIndex field)) :
    run phase (good ++ bad :: rest) =
      .fatal ⟨(decodeInput good.length bad).operands.sequenceIndex, .malformedCommandError, field⟩ := by
  obtain ⟨t, _, hf, hloop⟩ := runLoop_of_protocolValid (s := State.resetWith phase) (bad :: rest) (rest.length + 1)
    SimState.reset_inv rfl hvalid
  rw [Nat.zero_add, runLoop_of_fatal (step_withInput_of_exec rest (hbad t hf)) rfl] at hloop
  rw [run, List.length_append, List.length_cons]
  exact hloop

/-- Settles O51: the command raises the error of its first failing check, in whatever state it finds. -/
theorem firstBadCommandEndsRun : Obligations.FirstBadCommandEndsRun := by
  intro phase good rest bad hgood i c endsWith
  have hvalid := decodeFrom_zero_protocolValid hgood
  refine ⟨fun hi => run_of_fatal phase hvalid fun s hf => ?_, fun hi => ?_⟩
  · change exec i s = _
    rw [hi]
    exact exec_reserved_of_no_fault hf
  · have hne : ∀ c', i ≠ .reserved c' := fun c' hc' =>
      hi (hc'.trans (congrArg Instr.reserved (congrArg Instr.operands hc').symm))
    have ends_of_validate (f : FieldName) (hv : validate c = .error f) : endsWith f :=
      run_of_fatal phase hvalid fun s hf => exec_of_validate_error hne hf hv
    exact ⟨fun hm => ends_of_validate _ (validate_error_iff.2 (.inl ⟨hm, rfl⟩)),
      fun hm ho => ends_of_validate _ (validate_error_iff.2 (.inr (.inl ⟨hm, ho, rfl⟩))),
      fun hm ho hi => ends_of_validate _ (validate_error_iff.2 (.inr (.inr ⟨hm, ho, hi, rfl⟩)))⟩

/-! ### The run of a trace -/

/-- The front end gives commands with bits in their pins (30_encoding.md R64). -/
theorem decodeRecord_commandOfSample_protocolValid (k : SeqIndex) (e : Edge) (p : PinSample) :
    (decodeRecord (commandOfSample k e p)).protocolValid = true := by
  cases e <;> exact bitOperands_pinsOk k p.dataOut p.dataIn p.modeSelect

theorem frontEndFrom_protocolValid (before : Option Bit) (k : Nat) (bs : List Byte) :
    ∀ i ∈ (frontEndFrom before k bs).map decodeRecord, i.protocolValid = true := by
  induction bs generalizing before k with
  | nil => simp [frontEndFrom]
  | cons b rest ih =>
    exact List.forall_mem_cons.2 ⟨decodeRecord_commandOfSample_protocolValid _ _ _, ih _ _⟩

/-- Settles O52: the commands of the front end are protocol-valid. -/
theorem traceRunCompletes : Obligations.TraceRunCompletes := by
  intro phase payloads
  rw [← decodeFrom_map_record 0]
  refine run_of_protocolValid phase ?_
  rw [decodeFrom_map_record]
  exact frontEndFrom_protocolValid none 0 payloads.flatten

/-- In the commands of pulses every RISE has the bits of the command just before it, the low half of its pulse. -/
theorem dataSteady_pulses (data : Option (Bit × Bit)) (before : Option Bit) (k : Nat)
    (pulses : List (Bit × Bit × Bit)) :
    dataSteady data ((frontEndFrom before k
      (pulses.map fun p => pinBytes (.pulse p.1 p.2.1 p.2.2)).flatten).map decodeRecord) := by
  induction pulses generalizing data before k with
  | nil => trivial
  | cons p rest ih =>
    rw [List.map_cons, List.flatten_cons, pinBytes, frontEndFrom_pulse_append]
    split
    · exact ⟨rfl, by simpa using ih _ _ _⟩
    · exact ⟨rfl, by simpa using ih _ _ _⟩

/-- Settles O48: the commands of pulses are steady, so in both phases they leave the same record and log. -/
theorem pulseTracesHidePhase : Obligations.PulseTracesHidePhase := by
  intro pulses
  obtain ⟨t, ht, hrun, _⟩ := traceRunCompletes .onEdge [(pulses.map fun p => pinBytes (.pulse p.1 p.2.1 p.2.2)).flatten]
  obtain ⟨u, hu, hrun', _⟩ :=
    traceRunCompletes .beforeEdge [(pulses.map fun p => pinBytes (.pulse p.1 p.2.1 p.2.2)).flatten]
  have hsteady := steadyDataHidesPhase _ t _ (by
    rw [frontEnd, List.flatten_singleton]; exact dataSteady_pulses none none 0 pulses) rfl ht
  obtain rfl := Host.Outcome.next.inj (hu.symm.trans hsteady)
  rw [hrun, hrun']

end Sys2Proof.Machine
end

section
/-! SUPPORT. The IR scan (41_shift_registers.md R146): commands cut at their Rising ones, the walk through Capture-IR,
Shift-IR, Exit1-IR and Update-IR, and its statement. -/

namespace Sys2Proof.Machine

/-! ### From one Rising command to the next -/

/-- The pair of bits a Rising command samples: its own, or those of the command before it (41_shift_registers.md
R132). -/
def sampleOf (phase : SamplePhase) (before own : Option (Bit × Bit)) : Option (Bit × Bit) :=
  match phase with
  | .onEdge => own
  | .beforeEdge => before

theorem sampledBits_rise (phase : SamplePhase) (before : Option (Bit × Bit)) (k : SeqIndex) (o i m : Bit)
    (l : List Instr) :
    sampledBits phase before (.rise (bitOperands k o i m) :: l) =
      sampleOf phase before (some (o, i)) :: sampledBits phase (some (o, i)) l := by
  have hbits : commandBits (.rise (bitOperands k o i m)) = some (o, i) := commandBits_of_operands rfl
  cases phase <;> simp [sampledBits, sampleOf, hbits]

/-- A list of commands up to and with its first Rising one, whose mode_select is `m`: the commands before it lead from
`s` to `u`, which differs in `prev` only, the Rising one from there to `t`, and `rest` is left. -/
structure RisesTo (m : Bit) (l : List Instr) (s u t : State) (k : SeqIndex) (o i : Bit) (rest : List Instr) :
    Prop where
  before_eq : ∃ p, u = s.setSim (s.sim.setPrev p)
  before_inv : u.sim.Inv
  rise_eq : exec (.rise (bitOperands k o i m)) u = .next t
  exec_eq : execAll l s = execAll rest t
  inv : t.sim.Inv
  no_fault : t.sim.fault = none
  valid : ∀ j ∈ rest, j.protocolValid = true
  modes : risingModes l = m :: risingModes rest
  sampled : ∀ phase, sampledBits phase s.sim.prev l =
    sampleOf phase u.sim.prev (some (o, i)) :: sampledBits phase t.sim.prev rest

theorem RisesTo.rest_modes {m : Bit} {ms : List Bit} {l : List Instr} {s u t : State} {k : SeqIndex} {o i : Bit}
    {rest : List Instr} (h : RisesTo m l s u t k o i rest) (hm : risingModes l = m :: ms) : risingModes rest = ms :=
  (List.cons.inj (h.modes.symm.trans hm)).2

/-- A list with a Rising command comes to its first. -/
theorem exists_risesTo {l : List Instr} {s : State} {m : Bit} {ms : List Bit} (hinv : s.sim.Inv)
    (hf : s.sim.fault = none) (hl : ∀ j ∈ l, j.protocolValid = true) (hm : risingModes l = m :: ms) :
    ∃ u t k o i rest, RisesTo m l s u t k o i rest := by
  induction l generalizing s with
  | nil => cases hm
  | cons j rest ih =>
    obtain ⟨hj, hrest⟩ := List.forall_mem_cons.1 hl
    obtain ⟨b, hb⟩ | ⟨k, o, n, m', rfl⟩ := records_or_rise hj
    · rw [hb.modes] at hm
      obtain ⟨u, t, k, o, i, rest', h⟩ := ih (s := s.setSim (s.sim.setPrev (some b))) (hinv.setPrev _) hf hrest hm
      exact ⟨u, t, k, o, i, rest', h.before_eq, h.before_inv, h.rise_eq,
        (execAll_cons_of_next (hb.exec_eq s hf)).trans h.exec_eq, h.inv, h.no_fault, h.valid,
        (hb.modes rest).trans h.modes, fun phase => (hb.sampled phase _ rest).trans (h.sampled phase)⟩
    · rw [risingModes_rise] at hm
      obtain ⟨rfl, _⟩ := List.cons.inj hm
      obtain ⟨t, _, hexec, _, _, hprev, hf', _⟩ := exec_rise_of_inv hinv hf k o n m'
      refine ⟨s, t, k, o, n, rest, ⟨s.sim.prev, rfl⟩, hinv, hexec, execAll_cons_of_next hexec,
        (exec_keeps_inv hinv hexec).1, hf', hrest, risingModes_rise _ _ _ _ _, fun phase => ?_⟩
      rw [sampledBits_rise, hprev]

/-- Commands with no Rising one change `prev` only. -/
theorem execAll_of_no_rise {l : List Instr} {s : State} (hf : s.sim.fault = none)
    (hl : ∀ j ∈ l, j.protocolValid = true) (hm : risingModes l = []) :
    ∃ p, execAll l s = .next (s.setSim (s.sim.setPrev p)) := by
  induction l generalizing s with
  | nil => exact ⟨s.sim.prev, rfl⟩
  | cons j rest ih =>
    obtain ⟨hj, hrest⟩ := List.forall_mem_cons.1 hl
    obtain ⟨b, hb⟩ | ⟨k, o, n, m, rfl⟩ := records_or_rise hj
    · obtain ⟨p, hp⟩ := ih (s := s.setSim (s.sim.setPrev (some b))) hf hrest (hb.modes rest ▸ hm)
      exact ⟨p, (execAll_cons_of_next (hb.exec_eq s hf)).trans hp⟩
    · rw [risingModes_rise] at hm; cases hm

/-! ### The events and the bits of a scan -/

@[simp] theorem sealedOf_append (xs ys : List Event) : sealedOf (xs ++ ys) = sealedOf xs ++ sealedOf ys := by
  induction xs with
  | nil => rfl
  | cons e rest ih => cases e <;> simp [sealedOf, ih]

/-- The sampled pairs that a register holds, in shift order. -/
def heldPairs (r : ShiftRegister) : List (Option (Bit × Bit)) := (r.bitsOut.zip r.bitsIn).map some

theorem heldPairs_appendBits {r : ShiftRegister} (h : lengthsAgree r) (b : Bit × Bit) :
    heldPairs (appendBits r b) = heldPairs r ++ [some b] := by
  obtain ⟨hout, hin⟩ := h
  simp [heldPairs, appendBits, List.zip_append (hout.symm.trans hin)]

/-! ### The edges of a scan -/

section
variable {l rest : List Instr} {s u t : State} {k : SeqIndex} {o i : Bit} {r : ShiftRegister}

/-- In Shift-xR the Rising command samples a pair of bits, in either phase. -/
theorem RisesTo.exists_sample {m : Bit} (h : RisesTo m l s u t k o i rest) (hs : isShift s.sim.tap = true) :
    ∃ bo bi,
      (u.cfg.samplePhase = .onEdge ∧ (bo, bi) = (o, i) ∨
        u.cfg.samplePhase = .beforeEdge ∧ u.sim.prev = some (bo, bi)) ∧
      sampledBits s.cfg.samplePhase s.sim.prev l =
        some (bo, bi) :: sampledBits s.cfg.samplePhase t.sim.prev rest := by
  obtain ⟨p, hu⟩ := h.before_eq
  have hphase : u.cfg.samplePhase = s.cfg.samplePhase := by rw [hu]; rfl
  obtain ⟨_, hready⟩ := shiftReady_of_inv h.before_inv (by rw [hu]; exact hs)
  rw [h.sampled, hphase]
  cases hp : s.cfg.samplePhase with
  | onEdge => exact ⟨o, i, .inl ⟨rfl, rfl⟩, rfl⟩
  | beforeEdge =>
    obtain ⟨b, hb⟩ := Option.isSome_iff_exists.1 (hready.resolve_left (by simp [hphase, hp]))
    exact ⟨b.1, b.2, .inr ⟨rfl, hb⟩, by rw [hb]; rfl⟩

/-- From Select-IR-Scan a zero opens an empty register. -/
theorem RisesTo.capture (h : RisesTo 0 l s u t k o i rest) (hf : s.sim.fault = none) (ht : s.sim.tap = .selIR) :
    t.sim.tap = .capIR ∧ t.sim.openReg = some (emptyRegister .ir) ∧ t.cfg = s.cfg ∧
      t.log = s.log ++ [.transition k .selIR .capIR] := by
  obtain ⟨p, rfl⟩ := h.before_eq
  have hexec := captureOpensEmptyRegister (s.setSim (s.sim.setPrev p)) k o i .selIR .capIR .ir hf (.inr rfl) ht
  obtain rfl := Host.Outcome.next.inj (h.rise_eq.symm.trans hexec)
  exact ⟨rfl, rfl, rfl, rfl⟩

/-- From Capture-IR a zero leads to Shift-IR with the register as it is. -/
theorem RisesTo.enterShift (h : RisesTo 0 l s u t k o i rest) (hf : s.sim.fault = none) (ht : s.sim.tap = .capIR) :
    t.sim.tap = .shIR ∧ t.sim.openReg = s.sim.openReg ∧ t.cfg = s.cfg ∧
      t.log = s.log ++ [.transition k .capIR .shIR] := by
  obtain ⟨p, rfl⟩ := h.before_eq
  have hexec := enteringShiftAppendsNothing (s.setSim (s.sim.setPrev p)) k o i .capIR .shIR hf (.inr rfl) ht
  obtain rfl := Host.Outcome.next.inj (h.rise_eq.symm.trans hexec)
  exact ⟨rfl, rfl, rfl, rfl⟩

/-- In Shift-IR a zero appends the sampled pair to the open register. -/
theorem RisesTo.shift (h : RisesTo 0 l s u t k o i rest) (hf : s.sim.fault = none) (ht : s.sim.tap = .shIR)
    (hr : s.sim.openReg = some r) :
    ∃ b, t.sim.tap = .shIR ∧ t.sim.openReg = some (appendBits r b) ∧ t.cfg = s.cfg ∧
      t.log = s.log ++ [.transition k .shIR .shIR] ∧
      sampledBits s.cfg.samplePhase s.sim.prev l =
        some b :: sampledBits s.cfg.samplePhase t.sim.prev rest := by
  have hs : isShift s.sim.tap = true := by rw [ht]; rfl
  obtain ⟨bo, bi, hbits, hsampled⟩ := h.exists_sample hs
  obtain ⟨p, rfl⟩ := h.before_eq
  obtain ⟨happend, _⟩ := shiftAppendsSampledBits (s.setSim (s.sim.setPrev p)) k o i r hf hs
  obtain rfl := Host.Outcome.next.inj (h.rise_eq.symm.trans (happend bo bi hr hbits))
  exact ⟨(bo, bi), ht, rfl, rfl, by simp [ht], hsampled⟩

/-- In Shift-IR a one appends the sampled pair and seals the register. -/
theorem RisesTo.exit (h : RisesTo 1 l s u t k o i rest) (hinv : s.sim.Inv) (hf : s.sim.fault = none)
    (ht : s.sim.tap = .shIR) (hr : s.sim.openReg = some r) :
    ∃ b, t.sim.tap = .ex1IR ∧ t.sim.pending = some (appendBits r b) ∧
      t.log = s.log ++ [.transition k .shIR .ex1IR, .sealed k (appendBits r b)] ∧
      sampledBits s.cfg.samplePhase s.sim.prev l =
        some b :: sampledBits s.cfg.samplePhase t.sim.prev rest := by
  obtain ⟨bo, bi, hbits, hsampled⟩ := h.exists_sample (by rw [ht]; rfl)
  obtain ⟨p, rfl⟩ := h.before_eq
  have hones : s.sim.ones < 4 := hinv.ones_lt_four (by rw [ht]; decide)
  have hexec := exitSealsRegister (s.setSim (s.sim.setPrev p)) k o i bo bi r .shIR .ex1IR hf (.inr rfl) ht hr hones
    hbits
  obtain rfl := Host.Outcome.next.inj (h.rise_eq.symm.trans hexec)
  exact ⟨(bo, bi), rfl, rfl, rfl, hsampled⟩

/-- From Exit1-IR a one latches the pending register. -/
theorem RisesTo.update (h : RisesTo 1 l s u t k o i rest) (hf : s.sim.fault = none) (ht : s.sim.tap = .ex1IR)
    (hr : s.sim.pending = some r) :
    t.sim.tap = .updIR ∧ t.sim.latchedIr = some r ∧
      t.log = s.log ++ [.transition k .ex1IR .updIR, .latched k .ir r] := by
  have hu := h.before_inv
  obtain ⟨p, rfl⟩ := h.before_eq
  obtain ⟨_, hupdate⟩ := updateLatchesPending (s.setSim (s.sim.setPrev p)) k o i hu hf
  obtain ⟨q, hq, _, hexec⟩ := hupdate (.inl ht)
  obtain rfl : r = q := Option.some.inj (hr.symm.trans hq)
  obtain rfl := Host.Outcome.next.inj (h.rise_eq.symm.trans hexec)
  exact ⟨rfl, rfl, by simp [ht]⟩

end

/-! ### The stages of a scan -/

/-- From Exit1-IR a one latches the pending register; no register is sealed. -/
theorem execAll_update_scan {l : List Instr} {s : State} {q : ShiftRegister} (hinv : s.sim.Inv)
    (hf : s.sim.fault = none) (ht : s.sim.tap = .ex1IR) (hq : s.sim.pending = some q)
    (hl : ∀ j ∈ l, j.protocolValid = true) (hm : risingModes l = [1]) :
    ∃ t evs, execAll l s = .next t ∧ t.sim.tap = .updIR ∧ t.sim.latchedIr = some q ∧ t.log = s.log ++ evs ∧
      sealedOf evs = [] := by
  obtain ⟨u, s', k, o, i, rest, h⟩ := exists_risesTo hinv hf hl hm
  obtain ⟨htap, hlatched, hlog⟩ := h.update hf ht hq
  obtain ⟨p, hrest⟩ := execAll_of_no_rise h.no_fault h.valid (h.rest_modes hm)
  exact ⟨_, _, h.exec_eq.trans hrest, htap, hlatched, hlog, rfl⟩

/-- From Shift-IR `n` zeros and two ones append `n + 1` pairs to the open register, seal it and latch it. -/
theorem execAll_shift_scan {n : Nat} {l : List Instr} {s : State} {r : ShiftRegister} (hinv : s.sim.Inv)
    (hf : s.sim.fault = none) (ht : s.sim.tap = .shIR) (hr : s.sim.openReg = some r)
    (hl : ∀ j ∈ l, j.protocolValid = true) (hm : risingModes l = List.replicate n 0 ++ [1, 1]) :
    ∃ t q evs, execAll l s = .next t ∧ t.sim.tap = .updIR ∧ t.sim.latchedIr = some q ∧ t.log = s.log ++ evs ∧
      sealedOf evs = [q] ∧ q.length = r.length + (n + 1) ∧
      heldPairs q = heldPairs r ++ (sampledBits s.cfg.samplePhase s.sim.prev l).take (n + 1) := by
  induction n generalizing l s r with
  | zero =>
    obtain ⟨u, s', k, o, i, rest, h⟩ := exists_risesTo hinv hf hl hm
    obtain ⟨b, ht', hpending, hlog', hsampled⟩ := h.exit hinv hf ht hr
    obtain ⟨t, evs, hrest, htap, hlatched, hlog, hsealed⟩ :=
      execAll_update_scan h.inv h.no_fault ht' hpending h.valid (h.rest_modes hm)
    refine ⟨t, appendBits r b, _, h.exec_eq.trans hrest, htap, hlatched, by rw [hlog, hlog', List.append_assoc],
      by simp [sealedOf, hsealed], rfl, ?_⟩
    rw [hsampled, heldPairs_appendBits (hinv.open_lengths r hr), List.take_succ_cons, List.take_zero]
  | succ n ih =>
    have hm' : risingModes l = 0 :: (List.replicate n 0 ++ [1, 1]) := by rw [hm, List.replicate_succ, List.cons_append]
    obtain ⟨u, s', k, o, i, rest, h⟩ := exists_risesTo hinv hf hl hm'
    obtain ⟨b, ht', hopen, hcfg, hlog', hsampled⟩ := h.shift hf ht hr
    obtain ⟨t, q, evs, hrest, htap, hlatched, hlog, hsealed, hlen, hpairs⟩ :=
      ih h.inv h.no_fault ht' hopen h.valid (h.rest_modes hm')
    refine ⟨t, q, _, h.exec_eq.trans hrest, htap, hlatched, by rw [hlog, hlog', List.append_assoc],
      by simp [sealedOf, hsealed], ?_, ?_⟩
    · have happend : (appendBits r b).length = r.length + 1 := rfl
      omega
    · rw [hpairs, hcfg, hsampled, heldPairs_appendBits (hinv.open_lengths r hr), List.take_succ_cons,
        ← List.append_cons]

/-- Settles O44: a zero opens the register, another enters Shift-IR, and the shift stage does the rest; the invariant
gives the kind and the lengths of the latched register. -/
theorem irScanSealsOneRegister : Obligations.IrScanSealsOneRegister := by
  intro s l n hinv hf ht hl hm
  have hm1 : risingModes l = 0 :: 0 :: (List.replicate n 0 ++ [1, 1]) := by simpa using hm
  obtain ⟨_, s1, k1, o1, i1, l1, h1⟩ := exists_risesTo hinv hf hl hm1
  obtain ⟨ht1, hopen1, hcfg1, hlog1⟩ := h1.capture hf ht
  obtain ⟨_, s2, k2, o2, i2, l2, h2⟩ := exists_risesTo h1.inv h1.no_fault h1.valid (h1.rest_modes hm1)
  obtain ⟨ht2, hopen2, hcfg2, hlog2⟩ := h2.enterShift h1.no_fault ht1
  obtain ⟨t, q, evs, hexec, htap, hlatched, hlog, hsealed, hlen, hpairs⟩ :=
    execAll_shift_scan h2.inv h2.no_fault ht2 (hopen2.trans hopen1) h2.valid (h2.rest_modes (h1.rest_modes hm1))
  have hrun : execAll l s = .next t := h1.exec_eq.trans (h2.exec_eq.trans hexec)
  have hinvt : t.sim.Inv := (leadsTo_of_execAll hinv hf hl hrun).inv
  have hqlen : q.length = n + 1 := hlen.trans (Nat.zero_add _)
  obtain ⟨hout, hin⟩ := hinvt.latchedIr_lengths q hlatched
  refine ⟨t, q, _, hrun, htap, by rw [hlog, hlog2, hlog1, List.append_assoc, List.append_assoc],
    by simp [sealedOf, hsealed], hlatched, hinvt.latchedIr_kind q hlatched, hqlen, ?_, hout.symm.trans hqlen,
    hin.symm.trans hqlen⟩
  rw [h1.sampled, h2.sampled, List.drop_succ_cons, List.drop_succ_cons, List.drop_zero, ← hcfg1, ← hcfg2]
  exact hpairs

end Sys2Proof.Machine
end
